-- ==== Sys2Proof/Word.lean ====
section
/-!
DEFINITION. The words of the block: the byte, the 16-bit word, wrap-around addition, the four parse
positions of FR, and the two fixed numbers HEADER and MOD (00_scope.md rule R4 and section 5).
-/

namespace Sys2Proof

/-- A byte, 0..255; bit 0 is the least significant (00_scope.md section 5). -/
abbrev Byte := BitVec 8

/-- A word16, 0..65535 (00_scope.md section 5). -/
abbrev Word16 := BitVec 16

/-- `a +8 b = (a + b) mod 256`, no carry kept (00_scope.md section 5; R14, R133). -/
def add8 (a b : Byte) : Byte := a + b

/-- `HEADER` = 19 (R4). -/
abbrev header : Byte := 19#8

/-- `sum(s)`: the sum of the elements as natural numbers, not reduced (00_scope.md section 5). -/
def byteSum : List Byte → Nat
  | [] => 0
  | b :: bs => b.toNat + byteSum bs

/-- The four values of FR's state register `st` (R11); the binary encoding is unobservable (D4). -/
inductive ParseState where
  | idle
  | waitCount
  | waitBytes
  | waitChecksum
  deriving DecidableEq, Repr

end Sys2Proof
end

