-- ==== Sys2Proof/Config.lean ====
section
/-!
DEFINITION. The parameters of the block (00_scope.md rule R4), their default values where the spec gives a
default column (R57, R66, R93, R94), and the free values: opaque constants that nothing can evaluate.
-/

namespace Sys2Proof

/-- The eighteen opcode parameters `OP_*`, by name (R57). -/
inductive OpName where
  | start | baud | safe | full | drive | drivers | leds | song | play | sensors
  | pwmDrivers | driveDirect | stream | queryList | streamCtl | showScript | schedule | setClock
  deriving DecidableEq, Repr

/-- Every opcode parameter, in the order of R57's table. -/
def OpName.all : List OpName :=
  [.start, .baud, .safe, .full, .drive, .drivers, .leds, .song, .play, .sensors] ++
  [.pwmDrivers, .driveDirect, .stream, .queryList, .streamCtl, .showScript, .schedule, .setClock]

/-- One byte for each opcode parameter (R57: "each is one byte"). -/
structure Opcodes where
  start : Byte
  baud : Byte
  safe : Byte
  full : Byte
  drive : Byte
  drivers : Byte
  leds : Byte
  song : Byte
  play : Byte
  sensors : Byte
  pwmDrivers : Byte
  driveDirect : Byte
  stream : Byte
  queryList : Byte
  streamCtl : Byte
  showScript : Byte
  schedule : Byte
  setClock : Byte
  deriving DecidableEq, Repr

/-- The byte of an opcode parameter. -/
def Opcodes.val (o : Opcodes) : OpName → Byte
  | .start => o.start
  | .baud => o.baud
  | .safe => o.safe
  | .full => o.full
  | .drive => o.drive
  | .drivers => o.drivers
  | .leds => o.leds
  | .song => o.song
  | .play => o.play
  | .sensors => o.sensors
  | .pwmDrivers => o.pwmDrivers
  | .driveDirect => o.driveDirect
  | .stream => o.stream
  | .queryList => o.queryList
  | .streamCtl => o.streamCtl
  | .showScript => o.showScript
  | .schedule => o.schedule
  | .setClock => o.setClock

/-- What becomes of a partly filled line when a header byte arrives (R152: not in the document, U9). -/
inductive HeaderPolicy where
  | keep
  | flush
  | drop
  deriving DecidableEq, Repr, Inhabited

/-- The open points of the line reader (R153, N17, U9: parameters). -/
structure LineRules where
  /-- `LINE_MAX`. -/
  maxLen : Nat
  /-- Whether a line ends as soon as the buffer is full (else when a further byte overflows it). -/
  finishAtMax : Bool
  /-- A partly filled line when a header arrives. -/
  atHeader : HeaderPolicy
  /-- Whether the terminator is stored in the line. -/
  keepTerminator : Bool
  /-- Whether the byte that overflows the buffer starts the next line (else it is dropped). -/
  overflowStartsNext : Bool
  /-- Whether a carriage return that does not precede the terminator is stripped too. -/
  stripLoneCr : Bool
  deriving DecidableEq, Repr, Inhabited

/-- The build-time parameters (R4, R20: "Configuration is by the static parameters"). The last group belongs
to the surrounding units only (context). -/
structure Params where
  /-- `CAP`, the capacity of the payload buffer (OPEN). -/
  cap : Nat
  /-- `OP_*` (OPEN, R57). -/
  op : Opcodes
  /-- `STREAM_PAUSE_ARG` (OPEN, R93). -/
  pauseArg : Byte
  /-- `STREAM_RESUME_ARG` (OPEN, R94). -/
  resumeArg : Byte
  /-- `RATE` on the legal codes (R66): pairs of a code and its bits per second. -/
  rate : List (Byte × Nat)
  /-- `SENSOR_LEN` on the identifiers it is known for (context, R155). -/
  sensorLen : List (Byte × Nat)
  /-- `BYTE_TIMEOUT` in clock ticks (context, R154). -/
  byteTimeout : Nat
  /-- The line reader's open points (context, R153). -/
  line : LineRules
  /-- `PULSE_WIDTH` in clock ticks (context, R158). -/
  pulseWidth : Nat
  /-- Clock ticks in one second (the clock's unit is not in the document). -/
  ticksPerSecond : Nat
  /-- Width of the monotonic clock in bits (R159: not given). -/
  clockBits : Nat
  deriving DecidableEq, Repr

/-- `PULSE_PERIOD` = 30 s (R4, R158). -/
def Config.pulsePeriodSeconds : Nat := 30

/-- `SCRIPT_MAX` = 100 (R4, R157). -/
def Config.scriptMax : Nat := 100

/-- `LEN_GUARANTEED` = 253 (R4): the lengths the document's own acceptance property covers. -/
def Config.lenGuaranteed : Nat := 253

/-- `SONG_MAX_BYTES` = 32 (R4), a caller contract that CE does not check (R90). -/
def Config.songMaxBytes : Nat := 32

/-- The default column of R57. PRESUMED (log 2): general knowledge by the spec's own mark, G1. -/
def Config.opcodes : Opcodes where
  start := 128
  baud := 129
  safe := 131
  full := 132
  drive := 137
  drivers := 138
  leds := 139
  song := 140
  play := 141
  sensors := 142
  pwmDrivers := 144
  driveDirect := 145
  stream := 148
  queryList := 149
  streamCtl := 150
  showScript := 154
  schedule := 167
  setClock := 168

/-- The default table of R66. PRESUMED (log 2): G10; its two end points are the document's. -/
def Config.rate : List (Byte × Nat) :=
  [(0, 300), (1, 600), (2, 1200), (3, 2400), (4, 4800), (5, 9600)] ++
  [(6, 14400), (7, 19200), (8, 28800), (9, 38400), (10, 57600), (11, 115200)]

/-- `CAP` of the machine after reset: OPEN, no value (R4, N9; log 3). -/
opaque Config.cap : Nat

/-- `RATE0`, the rate the channel is first opened at: OPEN, no value (R213, N20; log 11). -/
opaque Config.rate0 : Nat

/-- FREE VALUE (R22, U2; log 4): the byte a cell of the payload buffer holds that nothing was stored in since the
n-th reset: arguments n and the cell's index. -/
opaque Config.freeCell : Nat → Nat → Byte

/-- FREE VALUE (U3; log 6): the rate for a code outside the domain of `RATE`. -/
opaque Config.rateOutside : Byte → Nat

/-- FREE VALUE (U6; log 7): what the receive queue holds after the n-th reopening of the channel. -/
opaque Config.rxAfterReopen : Nat → List Byte

/-- FREE VALUE (R218; log 7): what the transmit queue holds after the n-th reopening, where it was not drained. -/
opaque Config.txAfterReopen : Nat → List Byte

/-- FREE VALUE (N6; log 23): `SENSOR_LEN` of an identifier outside `Params.sensorLen` (context). -/
opaque Config.sensorLenOutside : Byte → Nat

/-- `BYTE_TIMEOUT`: OPEN, no value (context, R154; log 22). -/
opaque Config.byteTimeout : Nat

/-- The line reader's open points: OPEN (context, U9; log 20). -/
opaque Config.line : LineRules

/-- `PULSE_WIDTH`: OPEN, no value (context, R158; log 21). -/
opaque Config.pulseWidth : Nat

/-- Clock ticks in a second: OPEN (context, R159; log 21). -/
opaque Config.ticksPerSecond : Nat

/-- Width of the clock: OPEN (context, R159; log 21). -/
opaque Config.clockBits : Nat

/-- The initial "next pulse due": OPEN (context, R158, U10; log 21). -/
opaque Config.due0 : Nat

/-- The parameters of the machine after reset (log 2, log 3). Theorems about a state hold for every value of
`State.params`; these are only the values the reset state carries. -/
def Config.params : Params where
  cap := Config.cap
  op := Config.opcodes
  pauseArg := 0
  resumeArg := 1
  rate := Config.rate
  sensorLen := []
  byteTimeout := Config.byteTimeout
  line := Config.line
  pulseWidth := Config.pulseWidth
  ticksPerSecond := Config.ticksPerSecond
  clockBits := Config.clockBits

end Sys2Proof
end

