-- ==== Sys2Proof/Machine/Operands.lean ====
section
/-!
DEFINITION. Every operand computation of CE (41_command_encoder.md rule R102 lists them all): the split of a
signed 16-bit operand, the note count, the day mask, the count byte; each with its inverse, which the decoder uses.
-/

namespace Sys2Proof

/-- `u16(v)`: `v` when `v >= 0`, `v + 65536` when `v < 0` (00_scope.md section 5; R55). -/
def u16 (v : Int) : Word16 :=
  if 0 ≤ v then BitVec.ofNat 16 v.toNat else BitVec.ofNat 16 (v + 65536).toNat

/-- `hi8(w) = w[15:8]`. -/
def hi8 (w : Word16) : Byte := w.extractLsb' 8 8

/-- `lo8(w) = w[7:0]`. -/
def lo8 (w : Word16) : Byte := w.extractLsb' 0 8

/-- A signed 16-bit operand on the wire, high byte first (R35, R55). -/
def s16Bytes (v : Int) : List Byte := [hi8 (u16 v), lo8 (u16 v)]

/-- The signed value of two bytes read high byte first: the inverse of `s16Bytes`. -/
def s16OfBytes (hi lo : Byte) : Int := (hi ++ lo : BitVec 16).toInt

/-- The note count of SONG, `(|d| div 2) mod 256` (R56a, R90). -/
def noteCount (d : List Byte) : Byte := BitVec.ofNat 8 (d.length / 2)

/-- The count byte `|ids| mod 256` (R56c, R92, R99). -/
def countByte (ids : List Byte) : Byte := BitVec.ofNat 8 ids.length

/-- The sum over the listed days of `2^i` for the enabled ones, the first day having number `i` (R56b). -/
def dayMaskFrom (i : Nat) : List Bool → Nat
  | [] => 0
  | e :: es => (if e then 2 ^ i else 0) + dayMaskFrom (i + 1) es

/-- The day mask of SET_SCHEDULE: bit `i` is day `i`, 0 = Sunday (R56b, R96). -/
def dayMask (en : List Bool) : Byte := BitVec.ofNat 8 (dayMaskFrom 0 en)

/-- The enabled days of a mask, Sunday first: the inverse of `dayMask` on seven days. -/
def daysOfMask (m : Byte) : List Bool := (List.range 7).map fun i => m.getLsbD i

/-- The time bytes `hh[0], mm[0], hh[1], mm[1], ..` (R96). -/
def timeBytes : List Byte → List Byte → List Byte
  | h :: hs, m :: ms => h :: m :: timeBytes hs ms
  | _, _ => []

/-- The hours of a list of time bytes: every byte at an even place. -/
def hoursOf : List Byte → List Byte
  | h :: _ :: rest => h :: hoursOf rest
  | _ => []

/-- The minutes of a list of time bytes: every byte at an odd place. -/
def minutesOf : List Byte → List Byte
  | _ :: m :: rest => m :: minutesOf rest
  | _ => []

/-- The value a list of pairs gives a byte; the first pair with that byte counts. -/
def lookupByte : List (Byte × Nat) → Byte → Option Nat
  | [], _ => none
  | (c, r) :: rest, code => if c = code then some r else lookupByte rest code

/-- `RATE(code)` (R66); outside the domain the free value of U3 (log 6). -/
def Params.rateOf (p : Params) (code : Byte) : Nat :=
  match lookupByte p.rate code with
  | some r => r
  | none => Config.rateOutside code

/-- `SENSOR_LEN(id)` (context, R155); a free value where it is not known (log 23). -/
def Params.sensorLenOf (p : Params) (id : Byte) : Nat :=
  match lookupByte p.sensorLen id with
  | some n => n
  | none => Config.sensorLenOutside id

/-- `PULSE_PERIOD` in clock ticks (R158). -/
def Params.pulsePeriod (p : Params) : Nat := Config.pulsePeriodSeconds * p.ticksPerSecond

end Sys2Proof
end

