-- ==== Sys2Proof/Syntax.lean ====
section
/-!
DEFINITION. The instructions: one constructor for each row of spec/opcode_table.json. The first five are the
meanings FR gives a received byte (30_encoding.md rule R52), the others are CE's commands (R54).
-/

namespace Sys2Proof

/-- An instruction: one received byte with the meaning FR's state gives it, or one command of CE (R2, D1). -/
inductive Instr where
  /-- `FR.HDR`: the byte 19 in Idle (R121). -/
  | frHdr
  /-- `FR.SKIP`: any other byte in Idle (R122). -/
  | frSkip (b : Byte)
  /-- `FR.COUNT`: the length byte (R123). -/
  | frCount (n : Byte)
  /-- `FR.DATA`: a payload byte (R124). -/
  | frData (b : Byte)
  /-- `FR.CHK`: the checksum byte (R125). -/
  | frChk (c : Byte)
  /-- `START` (R81). -/
  | start
  /-- `SAFE` (R82). -/
  | safe
  /-- `FULL` (R83). -/
  | full
  /-- `MODE op` (R84). -/
  | mode (op : Byte)
  /-- `DRIVE v, r`: signed 16-bit velocity and radius (R85). -/
  | drive (v r : Int)
  /-- `DRIVE_DIRECT a, b`: two signed 16-bit values (R86). -/
  | driveDirect (a b : Int)
  /-- `LEDS x, y, z` (R87). -/
  | leds (x y z : Byte)
  /-- `DRIVERS x` (R88). -/
  | drivers (x : Byte)
  /-- `PWM_DRIVERS x, y, z` (R89). -/
  | pwmDrivers (x y z : Byte)
  /-- `SONG k, d`: the song index and the note data, of any length (R90). -/
  | song (k : Byte) (d : List Byte)
  /-- `PLAY_SONG k` (R91). -/
  | playSong (k : Byte)
  /-- `STREAM_START ids` (R92). -/
  | streamStart (ids : List Byte)
  /-- `STREAM_PAUSE` (R93). -/
  | streamPause
  /-- `STREAM_RESUME` (R94). -/
  | streamResume
  /-- `SET_CLOCK day, hour, minute` (R95). -/
  | setClock (day hour minute : Byte)
  /-- `SET_SCHEDULE en, hh, mm`: seven of each, Sunday first (R96). -/
  | setSchedule (en : List Bool) (hh mm : List Byte)
  /-- `BAUD code` (R97). -/
  | baud (code : Byte)
  /-- `QUERY id` (R98). -/
  | query (id : Byte)
  /-- `QUERY_LIST ids` (R99). -/
  | queryList (ids : List Byte)
  /-- `GET_SCRIPT` (R100). -/
  | getScript
  deriving DecidableEq, Repr

/-- Whether the instruction is one of CE's commands (R54) and not a received byte (R52). -/
def Instr.isCommand : Instr → Bool
  | .frHdr => false
  | .frSkip _ => false
  | .frCount _ => false
  | .frData _ => false
  | .frChk _ => false
  | .start => true
  | .safe => true
  | .full => true
  | .mode _ => true
  | .drive _ _ => true
  | .driveDirect _ _ => true
  | .leds _ _ _ => true
  | .drivers _ => true
  | .pwmDrivers _ _ _ => true
  | .song _ _ => true
  | .playSong _ => true
  | .streamStart _ => true
  | .streamPause => true
  | .streamResume => true
  | .setClock _ _ _ => true
  | .setSchedule _ _ _ => true
  | .baud _ => true
  | .query _ => true
  | .queryList _ => true
  | .getScript => true

end Sys2Proof
end

