-- ==== Sys2Proof/WellFormed.lean ====
section
/-!
DEFINITION. Which terms of Instr are instructions of the block: the operand ranges of rules R85, R86 and R96,
and the byte that selects FR.SKIP (R122). Every other operand is a byte or a byte sequence and fits as it stands
(30_encoding.md rule R59: CE validates nothing, so no caller contract is checked here).
-/

namespace Sys2Proof

/-- A signed 16-bit value, -32768..32767 (R55). -/
def isS16 (v : Int) : Bool := decide (-32768 ≤ v) && decide (v ≤ 32767)

/-- The check of one instruction. -/
def Instr.wellFormed : Instr → Bool
  | .frHdr => true
  | .frSkip b => b != header
  | .frCount _ => true
  | .frData _ => true
  | .frChk _ => true
  | .start => true
  | .safe => true
  | .full => true
  | .mode _ => true
  | .drive v r => isS16 v && isS16 r
  | .driveDirect a b => isS16 a && isS16 b
  | .leds _ _ _ => true
  | .drivers _ => true
  | .pwmDrivers _ _ _ => true
  | .song _ _ => true
  | .playSong _ => true
  | .streamStart _ => true
  | .streamPause => true
  | .streamResume => true
  | .setClock _ _ _ => true
  | .setSchedule en hh mm => en.length == 7 && hh.length == 7 && mm.length == 7
  | .baud _ => true
  | .query _ => true
  | .queryList _ => true
  | .getScript => true

/-- An input the caller may give CE: a command with operands of the right widths (R59, R187). -/
def Instr.isWellFormedCommand (i : Instr) : Bool := i.isCommand && i.wellFormed

end Sys2Proof
end

