-- ==== Sys2Proof/Decode.lean ====
section
/-!
DEFINITION. Decoding and encoding. Receive side: the decode map of rule R52, total. Transmit side: the inverse
reading of the command layouts of rule R54 (one command in one byte string, and rule R60's reader of a transmit
stream), total and rejecting by name. Then the encoder, written from R50, R52 and R54, and the host's table word.
-/

namespace Sys2Proof

/-! ### Receive side -/

/-- The decode map of the receive side (R52): the meaning of byte `b` in parse position `st`. -/
def decodeFr (st : ParseState) (b : Byte) : Instr :=
  match st with
  | .idle => if b = header then .frHdr else .frSkip b
  | .waitCount => .frCount b
  | .waitBytes => .frData b
  | .waitChecksum => .frChk b

/-- The parse position that selects an instruction of FR (R52, column "selected when"). -/
def Instr.selectedIn : Instr → Option ParseState
  | .frHdr => some .idle
  | .frSkip _ => some .idle
  | .frCount _ => some .waitCount
  | .frData _ => some .waitBytes
  | .frChk _ => some .waitChecksum
  | .start => none
  | .safe => none
  | .full => none
  | .mode _ => none
  | .drive _ _ => none
  | .driveDirect _ _ => none
  | .leds _ _ _ => none
  | .drivers _ => none
  | .pwmDrivers _ _ _ => none
  | .song _ _ => none
  | .playSong _ => none
  | .streamStart _ => none
  | .streamPause => none
  | .streamResume => none
  | .setClock _ _ _ => none
  | .setSchedule _ _ _ => none
  | .baud _ => none
  | .query _ => none
  | .queryList _ => none
  | .getScript => none

/-! ### Transmit side -/

/-- Why a byte string is not one command of R54. -/
inductive DecodeError where
  /-- The byte string is empty: a command has an opcode byte (R53). -/
  | empty
  /-- The opcode is one of R57's and the bytes after it are not that row's payload (R54). -/
  | wrongPayload (op : Byte)
  /-- The opcode is none of R57's and bytes follow it (R59: only `MODE op` emits such an opcode, alone). -/
  | unknownOpcode (op : Byte)
  /-- A transmit stream ends before the command that its first bytes announce (R60). -/
  | truncated (op : Byte)
  deriving DecidableEq, Repr

/-- The opcode parameter a byte is the value of. R57 does not say that the values are distinct: the first one in
the order of R57's table counts (log 18). -/
def Opcodes.name? (o : Opcodes) (op : Byte) : Option OpName :=
  OpName.all.find? fun n => decide (o.val n = op)

/-- A row without payload. -/
def payload0 (i : Instr) : List Byte → Option Instr
  | [] => some i
  | _ :: _ => none

/-- A row with one payload byte. -/
def payload1 (f : Byte → Instr) : List Byte → Option Instr
  | [x] => some (f x)
  | _ => none

/-- A row with three payload bytes. -/
def payload3 (f : Byte → Byte → Byte → Instr) : List Byte → Option Instr
  | [x, y, z] => some (f x y z)
  | _ => none

/-- A row with two signed 16-bit operands, high byte first (R55). -/
def payloadWords (f : Int → Int → Instr) : List Byte → Option Instr
  | [ah, al, bh, bl] => some (f (s16OfBytes ah al) (s16OfBytes bh bl))
  | _ => none

/-- A row with a count byte and as many identifiers (R56c). -/
def payloadIds (f : List Byte → Instr) : List Byte → Option Instr
  | [] => none
  | c :: ids => if c = countByte ids then some (f ids) else none

/-- SONG: index, note count, note data (R56a, R90). -/
def payloadSong : List Byte → Option Instr
  | k :: c :: d => if c = noteCount d then some (.song k d) else none
  | _ => none

/-- The shared opcode of STREAM_PAUSE and STREAM_RESUME: the argument tells them apart (R93, R94). -/
def payloadStreamCtl (p : Params) : List Byte → Option Instr
  | [a] =>
    if a = p.pauseArg then some .streamPause
    else if a = p.resumeArg then some .streamResume
    else none
  | _ => none

/-- SET_SCHEDULE: the day mask, whose bit 7 is 0, and fourteen time bytes (R56b, R96). -/
def payloadSchedule : List Byte → Option Instr
  | [] => none
  | m :: times =>
    if times.length = 14 ∧ m.getLsbD 7 = false then
      some (.setSchedule (daysOfMask m) (hoursOf times) (minutesOf times))
    else none

/-- The command of a known opcode with a given payload (R54, read from right to left). -/
def decodePayload (p : Params) (n : OpName) (payload : List Byte) : Option Instr :=
  match n with
  | .start => payload0 .start payload
  | .safe => payload0 .safe payload
  | .full => payload0 .full payload
  | .drive => payloadWords .drive payload
  | .driveDirect => payloadWords .driveDirect payload
  | .leds => payload3 .leds payload
  | .drivers => payload1 .drivers payload
  | .pwmDrivers => payload3 .pwmDrivers payload
  | .song => payloadSong payload
  | .play => payload1 .playSong payload
  | .stream => payloadIds .streamStart payload
  | .streamCtl => payloadStreamCtl p payload
  | .setClock => payload3 .setClock payload
  | .schedule => payloadSchedule payload
  | .baud => payload1 .baud payload
  | .sensors => payload1 .query payload
  | .queryList => payloadIds .queryList payload
  | .showScript => payload0 .getScript payload

/-- The command a whole byte string is, where it is one (R54). `MODE op` matches any single byte and is listed
last in decode order (opcode table, row MODE). -/
def decodeCommand (p : Params) : List Byte → Except DecodeError Instr
  | [] => .error .empty
  | op :: payload =>
    match p.op.name? op with
    | some n =>
      match decodePayload p n payload with
      | some i => .ok i
      | none => if payload = [] then .ok (.mode op) else .error (.wrongPayload op)
    | none => if payload = [] then .ok (.mode op) else .error (.unknownOpcode op)

/-- How many bytes the command that begins with a given opcode has (R60): fixed by R54, but for SONG, STREAM_START
and QUERY_LIST, whose second or third byte announces it. `rest` is what follows the opcode. -/
def commandLength (p : Params) (op : Byte) (rest : List Byte) : Nat :=
  match p.op.name? op with
  | some .start => 1
  | some .safe => 1
  | some .full => 1
  | some .showScript => 1
  | some .drivers => 2
  | some .play => 2
  | some .streamCtl => 2
  | some .baud => 2
  | some .sensors => 2
  | some .leds => 4
  | some .pwmDrivers => 4
  | some .setClock => 4
  | some .drive => 5
  | some .driveDirect => 5
  | some .schedule => 16
  | some .song => 3 + 2 * (rest.getD 1 0#8).toNat
  | some .stream => 2 + (rest.getD 0 0#8).toNat
  | some .queryList => 2 + (rest.getD 0 0#8).toNat
  | none => 1

/-- R60's reader of the transmit stream: the first command of a byte stream and the bytes after it. -/
def decodeStream (p : Params) (bs : List Byte) : Except DecodeError (Instr × List Byte) :=
  match bs with
  | [] => .error .empty
  | op :: rest =>
    if commandLength p op rest ≤ bs.length then
      match decodeCommand p (bs.take (commandLength p op rest)) with
      | .ok i => .ok (i, bs.drop (commandLength p op rest))
      | .error e => .error e
    else .error (.truncated op)

/-! ### The encoder -/

/-- The bytes of an instruction: the received byte of a row of R52, or `[opcode] ++ payload` by R54. -/
def encode (p : Params) : Instr → List Byte
  | .frHdr => [header]
  | .frSkip b => [b]
  | .frCount n => [n]
  | .frData b => [b]
  | .frChk c => [c]
  | .start => [p.op.start]
  | .safe => [p.op.safe]
  | .full => [p.op.full]
  | .mode op => [op]
  | .drive v r => p.op.drive :: (s16Bytes v ++ s16Bytes r)
  | .driveDirect a b => p.op.driveDirect :: (s16Bytes a ++ s16Bytes b)
  | .leds x y z => [p.op.leds, x, y, z]
  | .drivers x => [p.op.drivers, x]
  | .pwmDrivers x y z => [p.op.pwmDrivers, x, y, z]
  | .song k d => p.op.song :: k :: noteCount d :: d
  | .playSong k => [p.op.play, k]
  | .streamStart ids => p.op.stream :: countByte ids :: ids
  | .streamPause => [p.op.streamCtl, p.pauseArg]
  | .streamResume => [p.op.streamCtl, p.resumeArg]
  | .setClock day hour minute => [p.op.setClock, day, hour, minute]
  | .setSchedule en hh mm => p.op.schedule :: dayMask en :: timeBytes hh mm
  | .baud code => [p.op.baud, code]
  | .query id => [p.op.sensors, id]
  | .queryList ids => p.op.queryList :: countByte ids :: ids
  | .getScript => [p.op.showScript]

/-- The column "total bytes" of R54; one byte for a row of R52. -/
def Instr.totalBytes : Instr → Nat
  | .frHdr => 1
  | .frSkip _ => 1
  | .frCount _ => 1
  | .frData _ => 1
  | .frChk _ => 1
  | .start => 1
  | .safe => 1
  | .full => 1
  | .mode _ => 1
  | .drive _ _ => 5
  | .driveDirect _ _ => 5
  | .leds _ _ _ => 4
  | .drivers _ => 2
  | .pwmDrivers _ _ _ => 4
  | .song _ d => 3 + d.length
  | .playSong _ => 2
  | .streamStart ids => 2 + ids.length
  | .streamPause => 2
  | .streamResume => 2
  | .setClock _ _ _ => 4
  | .setSchedule _ _ _ => 16
  | .baud _ => 2
  | .query _ => 2
  | .queryList ids => 2 + ids.length
  | .getScript => 1

/-- The one name among several for the same bytes: `MODE op` with the value of an opcode-only parameter has the
bytes of that parameter's own command (R84; opcode table, row MODE: "never the unique decoding"). -/
def Instr.canonical (p : Params) : Instr → Instr
  | .mode op =>
    match p.op.name? op with
    | some .start => .start
    | some .safe => .safe
    | some .full => .full
    | some .showScript => .getScript
    | _ => .mode op
  | i => i

/-- The opcode parameters have eighteen different values. The spec does not say so (R57); statements that need it
assume it. -/
def Opcodes.distinct (o : Opcodes) : Prop := ∀ a b : OpName, o.val a = o.val b → a = b

/-- The parameters tell every two rows of R54 apart, but for `MODE op`. -/
def Params.unambiguous (p : Params) : Prop := p.op.distinct ∧ p.pauseArg ≠ p.resumeArg

/-- The commands whose length a reader of the transmit stream finds (R60): SONG with an even number of note bytes
whose count fits its byte, at most 255 identifiers, and `MODE op` with an opcode that no row names. -/
def Instr.lengthReadable (p : Params) : Instr → Prop
  | .mode op => p.op.name? op = none
  | .song _ d => d.length % 2 = 0 ∧ d.length < 512
  | .streamStart ids => ids.length < 256
  | .queryList ids => ids.length < 256
  | _ => True

/-! ### Pseudo-instruction FRAME -/

/-- The checksum byte a sender computes: `(256 - (19 + n + sum(p))) mod 256`, the outer reduction making it 0 when
the inner sum is a multiple of 256 (R51). -/
def frameChecksum (p : List Byte) : Byte :=
  BitVec.ofNat 8 (256 - (19 + p.length + byteSum p) % 256)

/-- `FRAME p` (R62): header, length, payload, checksum (R50). -/
def frame (p : List Byte) : List Byte :=
  header :: BitVec.ofNat 8 p.length :: (p ++ [frameChecksum p])

/-! ### The host's table word -/

/-- The bytes of a table word of `k` bytes: the table writes byte 0, the first on the wire, as the high byte of a
pattern of two ("byte 0 is the high byte of the pattern", rows STREAM_PAUSE and STREAM_RESUME). -/
def wordBytes : Nat → Nat → List Byte
  | 0, _ => []
  | k + 1, w => BitVec.ofNat 8 (w / 256 ^ k) :: wordBytes k w

/-- The instruction that the bytes of a table word begin (log 16): the row of the opcode table with fixed bits that
matches (`FR.HDR` for the byte 19, else the command of the opcode, its operand bytes past the word being zeros);
where no row with fixed bits matches a single byte, the byte is what FR takes it for in Idle, since the table lists
MODE last in decode order. -/
def decodeTableBytes : List Byte → Option Instr
  | [] => none
  | op :: rest =>
    if rest = [] ∧ Config.opcodes.name? op = none then some (decodeFr .idle op)
    else
      let n := commandLength Config.params op (rest ++ [0#8, 0#8])
      match decodeStream Config.params (op :: rest ++ List.replicate (n - (rest.length + 1)) 0#8) with
      | .ok (i, _) => some i
      | .error _ => none

/-- The instruction read from a table word (log 16). Where the high byte of a word of several bytes is no opcode of
R57, byte 0 is the low one, as the rows whose pattern is bits 7..0 of byte 0 number it. -/
def decodeTableWord (nbits w : Nat) : Option Instr :=
  let bytes := wordBytes (nbits / 8) w
  if (bytes.head?.bind Config.opcodes.name?) = none then decodeTableBytes bytes.reverse else decodeTableBytes bytes

end Sys2Proof
end

