-- ==== Sys2Proof/Machine/State.lean ====
section
/-!
DEFINITION. The state: FR's registers and buffer (10_state.md rules R10 to R16), the Byte Channel and the other
environment-owned state the rules meet (R21), the inputs still to come, the two output ports, the build-time
parameters; the reasons a step can stop; and the state after reset (R22). CE has no state (R18).
-/

namespace Sys2Proof.Machine

open Sys2Proof

/-- A memory: pairs of an index and a byte, indices strictly rising (`Memory.wf`, Machine/Ops.lean). -/
abbrev Memory := List Host.Cell

/-- The event of one FR step (R120). -/
inductive Event where
  /-- The byte was taken into a frame that is not yet complete. -/
  | none
  /-- The byte is no part of a frame. -/
  | discard (b : Byte)
  /-- The byte completed a frame whose checksum rule holds; `n` is the frame's length byte. -/
  | accept (n : Byte)
  /-- The byte completed a frame whose checksum rule fails. -/
  | reject
  deriving DecidableEq, Repr

/-- The four errors of the document's taxonomy, names only (R180, R185). -/
inductive Err where
  | timeout
  | checksumMismatch
  | protocolViolation
  | truncation
  deriving DecidableEq, Repr

/-- What a call of the surrounding software returned (context: R151, R154, R157, R30). -/
inductive Report where
  /-- `pollOnce` returned: with a frame its length and its payload cells, without one `false`. -/
  | polled (result : Option (Byte × List Byte))
  /-- `readExact` returned success with these bytes. -/
  | bytes (got : List Byte)
  /-- `getScript` returned the script's count, and the bytes copied to the destination. -/
  | script (count : Byte) (got : List Byte)
  /-- A synchronous read returned `Timeout`; `got` are the bytes already written to the destination, which the
  caller must treat as invalid (R154). -/
  | timeout (got : List Byte)
  /-- `getScript` returned `ProtocolViolation` with this count (R185: the count 0). -/
  | violation (count : Byte)
  /-- The consumer read a cell of the payload buffer. -/
  | cell (v : Byte)
  deriving DecidableEq, Repr

/-- One input: what the single caller (or the environment) does next (R39, R187, R214; log 1, log 12, log 19). -/
inductive Input where
  /-- The caller reads the oldest waiting byte and hands it to FR (R187, D11), without the surrounding units
  (log 28). -/
  | feed
  /-- The caller gives CE a command (R187). -/
  | command (i : Instr)
  /-- `Reset` of FR (R210). -/
  | reset
  /-- Environment: a byte from the robot joins the receive queue (R33). -/
  | arrive (b : Byte)
  /-- Environment: the oldest queued byte leaves on the wire (R33). -/
  | transmit
  /-- Environment: `open(r)` of the channel by the surrounding software, at start-up or later (R33, R213, R218). -/
  | openChannel (r : Nat)
  /-- Context: `pollOnce(now)`, one received byte a step (R151). -/
  | poll (now : Nat)
  /-- Context: `readExact`, `n` bytes still to read, `got` already read (R154). -/
  | readExact (n : Nat) (got : List Byte)
  /-- Context: single-sensor query (R155). -/
  | querySensor (id : Byte)
  /-- Context: multi-ID query with the expected total length `n` (R156). -/
  | queryMulti (ids : List Byte) (n : Nat)
  /-- Context: `getScript` into a destination of `cap` bytes (R157). -/
  | getScript (cap : Nat)
  /-- Context: the count byte of `getScript` (R157, first phase). -/
  | scriptCount (cap : Nat)
  /-- Context: the script bytes of `getScript` (R157, second phase), `left` still to read. -/
  | scriptBody (left : Nat) (cap : Nat) (count : Byte) (got : List Byte)
  /-- The consumer of `Accept` reads cell `i` of the payload buffer (R30). -/
  | readCell (i : Nat)
  deriving DecidableEq, Repr

/-- FR: the tuple `(st, len, cnt, sum, buf)` (R10). -/
structure Framer where
  /-- Parse position (R11). -/
  st : ParseState
  /-- Length byte of the frame being parsed (R12). -/
  len : Byte
  /-- Payload bytes of the current frame consumed so far, and the next slot (R13). -/
  cnt : Byte
  /-- Running checksum modulo 256, the header included (R14, C1). -/
  sum : Byte
  /-- The payload buffer: the cells a byte was stored in since reset (R15; log 4). -/
  buf : Memory
  deriving DecidableEq, Repr

/-- The Byte Channel, environment-owned (R21, R33). -/
structure Channel where
  /-- Received bytes waiting, oldest first. -/
  rx : List Byte
  /-- Bytes written and not yet sent ("in flight"), oldest first. -/
  tx : List Byte
  /-- Bits per second. -/
  rate : Nat
  /-- The bytes already sent, oldest first, each with the rate it was sent at (the model's record, log 12). -/
  wire : List (Nat × Byte)
  deriving DecidableEq, Repr

/-- The surrounding software's own state, environment-owned (R21, R152, R158; context). -/
structure Surround where
  /-- "Next pulse due" (R158). -/
  due : Nat
  /-- The wake pulses driven so far: start time and width (the model's record, log 21). -/
  pulses : List (Nat × Nat)
  /-- The line buffer (R153). -/
  line : List Byte
  /-- The lines logged so far (the model's record, log 20). -/
  lines : List (List Byte)
  /-- What the robot sends while a reader waits: ticks from the start of the wait, and the byte (log 22). -/
  arrivals : List (Nat × Byte)
  /-- Ticks the readers have spent waiting (the model's record, log 22). -/
  waited : Nat
  deriving DecidableEq, Repr

/-- The machine. -/
structure State where
  /-- Unit FR (R10). -/
  fr : Framer
  /-- The index of the free values that the buffer's unlisted cells hold: each reset of FR takes the next (log 4). -/
  cells : Nat
  /-- Output port: the event of the step just taken, or none (R19, R120; log 13). -/
  event : Option Event
  /-- The Byte Channel (R21). -/
  chan : Channel
  /-- The inputs still to come, oldest first (log 1). -/
  inputs : List Input
  /-- The index of the next free value (log 7). -/
  fresh : Nat
  /-- The surrounding software (R21, context). -/
  sur : Surround
  /-- Output port: what a surrounding call returned at the step just taken, or none (log 19). -/
  report : Option Report
  /-- The build-time parameters (R4); no step writes them. -/
  params : Params
  deriving DecidableEq, Repr

/-- Why a step faults. -/
inductive Fault where
  /-- Raised by the input `readCell i` with `i >= CAP`: the spec has no such cell (R30: defined only for
  `0 <= i < CAP`). Safe: no rule of the block forms such an access (log 24). -/
  | noSuchCell (i : Nat)
  deriving DecidableEq, Repr

/-- Why a step is refused. -/
inductive Refusal where
  /-- Raised by an arm of `exec` whose instruction has no meaning yet; none is left. Safe. -/
  | notModelled (mnemonic : String)
  /-- Raised by the input `feed` when no byte waits: `ChanRead` has the precondition that one does (R34, R215;
  U4: "refuse"). Safe (log 8). -/
  | chanReadEmpty
  /-- Raised by the input `command i` when `i` is no command of R54 or has an operand outside its width. Safe: the
  caller cannot give CE such a command (log 17). -/
  | notACommand
  deriving DecidableEq, Repr

/-- FR after reset (R22): Idle, the three registers 0, every buffer cell unspecified (nothing is listed, and an
unlisted cell holds a free value; log 4). -/
def Framer.reset : Framer where
  st := .idle
  len := 0#8
  cnt := 0#8
  sum := 0#8
  buf := []

/-- The machine after reset: FR by R22; the channel open at RATE0 with empty queues (R213; log 11); no input, no
event (R22, R19); the parameters of Config. -/
def State.reset : State where
  fr := Framer.reset
  cells := 0
  event := none
  chan := { rx := [], tx := [], rate := Config.rate0, wire := [] }
  inputs := []
  fresh := 0
  sur := { due := Config.due0, pulses := [], line := [], lines := [], arrivals := [], waited := 0 }
  report := none
  params := Config.params

end Sys2Proof.Machine
end

