-- ==== Sys2Proof/Machine/Flags.lean ====
section
/-!
DEFINITION. The block has no flag and no condition code (10_state.md rule R19); the one outcome it computes is the
acceptance test of a frame's sum, which becomes the event of the step, and the names of the errors (R180, R185).
-/

namespace Sys2Proof.Machine

open Sys2Proof

/-- The acceptance test: the running sum, checksum byte included, is 0 mod 256 (R125, R133). -/
def sumAccepts (sum : Byte) : Bool := decide (sum = 0#8)

/-- The sum `FR.COUNT` loads: header plus length, modulo 256 (R123, C1). -/
def startSum (n : Byte) : Byte := add8 header n

/-- The error an event reports: only `Reject` is one, the `ChecksumMismatch` (R181, R185). -/
def Event.err? : Event → Option Err
  | .none => Option.none
  | .discard _ => Option.none
  | .accept _ => Option.none
  | .reject => some .checksumMismatch

/-- The error a surrounding call returns (R183, R184; context). -/
def Report.err? : Report → Option Err
  | .polled _ => none
  | .bytes _ => none
  | .script _ _ => none
  | .timeout _ => some .timeout
  | .violation _ => some .protocolViolation
  | .cell _ => none

/-- Whether a payload byte of slot `cnt` is truncated (R182): the error `Truncation`, which nothing reports. -/
def truncation? (cap : Nat) (cnt : Byte) : Option Err :=
  if cnt.toNat < cap then none else some .truncation

end Sys2Proof.Machine
end

