-- ==== Sys2Proof/Machine/Ops.lean ====
section
/-!
DEFINITION. The named operations: the payload buffer (20_memory.md rule R30), the channel primitives (R33),
the event port (R120), and what stands for taking an exception and returning from one (R189, R191).
-/

namespace Sys2Proof.Machine

open Sys2Proof

/-! ### The payload buffer -/

/-- What a cell holds in which no byte was stored since the reset numbered `k`: a free value (R22, U2; log 4). -/
def Memory.unlisted (k i : Nat) : Byte := Config.freeCell k i

/-- `MemRead(i, 1)` on the cells (R30), `k` numbering the free values of the unlisted ones. -/
def Memory.read (k : Nat) : Memory → Nat → Byte
  | [], i => Memory.unlisted k i
  | (a, b) :: rest, i => if a = i then b else Memory.read k rest i

/-- `MemWrite(i, 1, v)` on the cells (R30), keeping the indices in rising order. -/
def Memory.write : Memory → Nat → Byte → Memory
  | [], i, v => [(i, v)]
  | (a, b) :: rest, i, v =>
    if i < a then (i, v) :: (a, b) :: rest
    else if i = a then (a, v) :: rest
    else (a, b) :: Memory.write rest i v

/-- The canonical form: indices strictly rising. (The listed cells are those stored in since reset. What an unlisted
cell holds is free, so no entry can be compared with it; log 4.) -/
abbrev Memory.wf (m : Memory) : Prop := m.Pairwise fun c d => c.1 < d.1

/-- `if i < CAP then MemWrite(i, 1, v)`: the bounds-checked store of FR.DATA (R15, R124). -/
def Memory.store (m : Memory) (cap i : Nat) (v : Byte) : Memory :=
  if i < cap then m.write i v else m

/-- What the consumer reads in cell `i` (R30). -/
def State.cell (s : State) (i : Nat) : Byte := Memory.read s.cells s.fr.buf i

/-- The payload window `buf[0..min(n,CAP)-1]` of an accepted frame of length `n` (R32). -/
def State.payload (s : State) (n : Byte) : List Byte :=
  (List.range (min n.toNat s.params.cap)).map s.cell

/-! ### The Byte Channel -/

/-- `ChanAvailable()`: the number of received bytes waiting (R33). -/
def State.chanAvailable (s : State) : Nat := s.chan.rx.length

/-- `ChanRead()`: the oldest waiting byte, and the state without it; none when no byte waits (R34). -/
def State.chanRead (s : State) : Option (Byte × State) :=
  match s.chan.rx with
  | [] => none
  | b :: rest => some (b, { s with chan := { s.chan with rx := rest } })

/-- `ChanWrite(bs)`: append the bytes to the transmit side, in order (R33, R40); it always completes (R101). -/
def State.chanWrite (s : State) (bs : List Byte) : State :=
  { s with chan := { s.chan with tx := s.chan.tx ++ bs } }

/-- `ChanDrain()`: every byte written so far leaves at the present rate (R33, R41). -/
def State.chanDrain (s : State) : State :=
  { s with chan := { s.chan with tx := [], wire := s.chan.wire ++ s.chan.tx.map fun b => (s.chan.rate, b) } }

/-- `ChanReopen(r)`: close the channel and open it at rate `r` (R33). What the receive queue then holds is a free
value (U6; log 7); so is what the transmit queue holds, where it was not drained before (R218: "drops or garbles
queued bytes"). -/
def State.chanReopen (s : State) (r : Nat) : State :=
  { s with
    chan := { s.chan with
      rate := r
      rx := Config.rxAfterReopen s.fresh
      tx := if s.chan.tx = [] then [] else Config.txAfterReopen s.fresh }
    fresh := s.fresh + 1 }

/-- Environment: a byte from the robot joins the receive queue (R33, U7: unbounded). -/
def State.chanArrive (s : State) (b : Byte) : State :=
  { s with chan := { s.chan with rx := s.chan.rx ++ [b] } }

/-- Environment: the oldest queued byte leaves at the present rate (R33); nothing when none is queued. -/
def State.chanTransmit (s : State) : State :=
  match s.chan.tx with
  | [] => s
  | b :: rest => { s with chan := { s.chan with tx := rest, wire := s.chan.wire ++ [(s.chan.rate, b)] } }

/-! ### Ports -/

/-- `emit E` (00_scope.md section 5; R120). -/
def State.emit (s : State) (e : Event) : State := { s with event := some e }

/-- A surrounding call returns (context). -/
def State.answer (s : State) (r : Report) : State := { s with report := some r }

/-- Both ports empty: at the start of every step (R19: no step reads an earlier event). -/
def State.clearPorts (s : State) : State := { s with event := none, report := none }

/-! ### Errors and reset -/

/-- Taking the block's one reported error, `ChecksumMismatch` (R181, R189): `st` to Idle, `sum` the residue, event
`Reject`; nothing is saved and control goes nowhere. The return (R191) is implicit: FR is in Idle. -/
def State.takeChecksumMismatch (s : State) (residue : Byte) : State :=
  State.emit { s with fr := { s.fr with st := .idle, sum := residue } } .reject

/-- `Reset` (R210, R212): FR to its reset state, the buffer's cells free anew, no event, nothing else. -/
def State.resetFramer (s : State) : State := { s with fr := Framer.reset, cells := s.cells + 1 }

end Sys2Proof.Machine
end

