-- ==== Sys2Proof/Machine/Accessories.lean ====
section
/-!
DEFINITION. CE, accessories (41_command_encoder.md rules R87 to R89): byte operands as they stand.
-/

namespace Sys2Proof.Machine

open Sys2Proof

/-- `LEDS x, y, z` (R87). -/
def execLeds (x y z : Byte) (s : State) : Host.Outcome State Fault Refusal :=
  .next (s.chanWrite [s.params.op.leds, x, y, z])

/-- `DRIVERS x` (R88). -/
def execDrivers (x : Byte) (s : State) : Host.Outcome State Fault Refusal :=
  .next (s.chanWrite [s.params.op.drivers, x])

/-- `PWM_DRIVERS x, y, z` (R89): no range check. -/
def execPwmDrivers (x y z : Byte) (s : State) : Host.Outcome State Fault Refusal :=
  .next (s.chanWrite [s.params.op.pwmDrivers, x, y, z])

end Sys2Proof.Machine
end

