-- ==== Sys2Proof/Machine/Baud.lean ====
section
/-!
DEFINITION. CE, the baud change (41_command_encoder.md rule R97): the only command with an effect beyond transmission.
-/

namespace Sys2Proof.Machine

open Sys2Proof

/-- `BAUD code` (R97): write, drain at the old rate, reopen at `RATE(code)` (a free value outside its domain, U3). -/
def execBaud (code : Byte) (s : State) : Host.Outcome State Fault Refusal :=
  .next ((s.chanWrite [s.params.op.baud, code]).chanDrain.chanReopen (s.params.rateOf code))

end Sys2Proof.Machine
end

