-- ==== Sys2Proof/Machine/ClockSchedule.lean ====
section
/-!
DEFINITION. CE, clock and schedule (41_command_encoder.md rules R95, R96).
-/

namespace Sys2Proof.Machine

open Sys2Proof

/-- `SET_CLOCK day, hour, minute` (R95): values outside the stated ranges are written unchanged. -/
def execSetClock (day hour minute : Byte) (s : State) : Host.Outcome State Fault Refusal :=
  .next (s.chanWrite [s.params.op.setClock, day, hour, minute])

/-- `SET_SCHEDULE en, hh, mm` (R96): the day mask, then hour and minute of each day, Sunday first; the time bytes
of a disabled day are written as given. -/
def execSetSchedule (en : List Bool) (hh mm : List Byte) (s : State) : Host.Outcome State Fault Refusal :=
  .next (s.chanWrite ([s.params.op.schedule, dayMask en] ++ timeBytes hh mm))

end Sys2Proof.Machine
end

