-- ==== Sys2Proof/Machine/Framer.lean ====
section
/-!
DEFINITION. FR's five instructions (42_stream_framer.md rules R121 to R125). Each is the rule's pseudocode; that
the parse position selects it is the decoder's part (R52; log 14).
-/

namespace Sys2Proof.Machine

open Sys2Proof

/-- `FR.HDR` (R121). -/
def execFrHdr (s : State) : Host.Outcome State Fault Refusal :=
  .next (State.emit { s with fr := { s.fr with st := .waitCount } } .none)

/-- `FR.SKIP` (R122). -/
def execFrSkip (b : Byte) (s : State) : Host.Outcome State Fault Refusal :=
  .next (s.emit (.discard b))

/-- `FR.COUNT` (R123; C1, C2). -/
def execFrCount (n : Byte) (s : State) : Host.Outcome State Fault Refusal :=
  .next (State.emit
    { s with
      fr := { s.fr with
        st := if n = 0#8 then .waitChecksum else .waitBytes
        len := n
        cnt := 0#8
        sum := startSum n } } .none)

/-- `FR.DATA` (R124; C2, R130). All reads see the values from before the step; `cnt` is an 8-bit register, and in
every state a run reaches `cnt + 1` does not wrap (R13, R16; log 15). -/
def execFrData (b : Byte) (s : State) : Host.Outcome State Fault Refusal :=
  .next (State.emit
    { s with
      fr := { s.fr with
        st := if s.fr.cnt + 1#8 = s.fr.len then .waitChecksum else s.fr.st
        cnt := s.fr.cnt + 1#8
        sum := add8 s.fr.sum b
        buf := s.fr.buf.store s.params.cap s.fr.cnt.toNat b } } .none)

/-- `FR.CHK` (R125): `Accept` of the frame's own length (D16), or the error of R189. -/
def execFrChk (c : Byte) (s : State) : Host.Outcome State Fault Refusal :=
  if sumAccepts (add8 s.fr.sum c) then
    .next (State.emit { s with fr := { s.fr with st := .idle, sum := add8 s.fr.sum c } } (.accept s.fr.len))
  else .next (s.takeChecksumMismatch (add8 s.fr.sum c))

end Sys2Proof.Machine
end

