-- ==== Sys2Proof/Machine/Modes.lean ====
section
/-!
DEFINITION. CE, the mode changes (41_command_encoder.md rules R80 to R84): each writes one opcode byte.
-/

namespace Sys2Proof.Machine

open Sys2Proof

/-- `START` (R81). -/
def execStart (s : State) : Host.Outcome State Fault Refusal :=
  .next (s.chanWrite [s.params.op.start])

/-- `SAFE` (R82). -/
def execSafe (s : State) : Host.Outcome State Fault Refusal :=
  .next (s.chanWrite [s.params.op.safe])

/-- `FULL` (R83). -/
def execFull (s : State) : Host.Outcome State Fault Refusal :=
  .next (s.chanWrite [s.params.op.full])

/-- `MODE op` (R84): any byte, unchecked. -/
def execMode (op : Byte) (s : State) : Host.Outcome State Fault Refusal :=
  .next (s.chanWrite [op])

end Sys2Proof.Machine
end

