-- ==== Sys2Proof/Machine/Motion.lean ====
section
/-!
DEFINITION. CE, motion (41_command_encoder.md rules R85, R86): two signed 16-bit operands, high byte first (R35, R55).
-/

namespace Sys2Proof.Machine

open Sys2Proof

/-- `DRIVE v, r` (R85): no clamping, no special radius. -/
def execDrive (v r : Int) (s : State) : Host.Outcome State Fault Refusal :=
  .next (s.chanWrite [s.params.op.drive, hi8 (u16 v), lo8 (u16 v), hi8 (u16 r), lo8 (u16 r)])

/-- `DRIVE_DIRECT a, b` (R86). -/
def execDriveDirect (a b : Int) (s : State) : Host.Outcome State Fault Refusal :=
  .next (s.chanWrite [s.params.op.driveDirect, hi8 (u16 a), lo8 (u16 a), hi8 (u16 b), lo8 (u16 b)])

end Sys2Proof.Machine
end

