-- ==== Sys2Proof/Machine/Requests.lean ====
section
/-!
DEFINITION. CE, the requests whose answers the surrounding reader collects (41_command_encoder.md rules R98 to R100).
-/

namespace Sys2Proof.Machine

open Sys2Proof

/-- `QUERY id` (R98). -/
def execQuery (id : Byte) (s : State) : Host.Outcome State Fault Refusal :=
  .next (s.chanWrite [s.params.op.sensors, id])

/-- `QUERY_LIST ids` (R99): count, then the identifiers. -/
def execQueryList (ids : List Byte) (s : State) : Host.Outcome State Fault Refusal :=
  .next (s.chanWrite ([s.params.op.queryList, countByte ids] ++ ids))

/-- `GET_SCRIPT` (R100). -/
def execGetScript (s : State) : Host.Outcome State Fault Refusal :=
  .next (s.chanWrite [s.params.op.showScript])

end Sys2Proof.Machine
end

