-- ==== Sys2Proof/Machine/Songs.lean ====
section
/-!
DEFINITION. CE, songs (41_command_encoder.md rules R90, R91).
-/

namespace Sys2Proof.Machine

open Sys2Proof

/-- `SONG k, d` (R90): the count byte is `(|d| div 2) mod 256` and all of `d` is written, whatever its length (D14). -/
def execSong (k : Byte) (d : List Byte) (s : State) : Host.Outcome State Fault Refusal :=
  .next (s.chanWrite ([s.params.op.song, k, noteCount d] ++ d))

/-- `PLAY_SONG k` (R91). -/
def execPlaySong (k : Byte) (s : State) : Host.Outcome State Fault Refusal :=
  .next (s.chanWrite [s.params.op.play, k])

end Sys2Proof.Machine
end

