-- ==== Sys2Proof/Machine/Stream.lean ====
section
/-!
DEFINITION. CE, stream control (41_command_encoder.md rules R92 to R94). None of them touches FR.
-/

namespace Sys2Proof.Machine

open Sys2Proof

/-- `STREAM_START ids` (R92): count, then the identifiers. -/
def execStreamStart (ids : List Byte) (s : State) : Host.Outcome State Fault Refusal :=
  .next (s.chanWrite ([s.params.op.stream, countByte ids] ++ ids))

/-- `STREAM_PAUSE` (R93). -/
def execStreamPause (s : State) : Host.Outcome State Fault Refusal :=
  .next (s.chanWrite [s.params.op.streamCtl, s.params.pauseArg])

/-- `STREAM_RESUME` (R94). -/
def execStreamResume (s : State) : Host.Outcome State Fault Refusal :=
  .next (s.chanWrite [s.params.op.streamCtl, s.params.resumeArg])

end Sys2Proof.Machine
end

