-- ==== Sys2Proof/Machine/Dispatch.lean ====
section
/-!
DEFINITION. The dispatch: one arm per constructor of Instr.
-/

namespace Sys2Proof.Machine

open Sys2Proof

def exec (i : Instr) (s : State) : Host.Outcome State Fault Refusal :=
  match i with
  | .frHdr => Sys2Proof.Machine.execFrHdr s
  | .frSkip b => Sys2Proof.Machine.execFrSkip b s
  | .frCount n => Sys2Proof.Machine.execFrCount n s
  | .frData b => Sys2Proof.Machine.execFrData b s
  | .frChk c => Sys2Proof.Machine.execFrChk c s
  | .start => Sys2Proof.Machine.execStart s
  | .safe => Sys2Proof.Machine.execSafe s
  | .full => Sys2Proof.Machine.execFull s
  | .mode op => Sys2Proof.Machine.execMode op s
  | .drive v r => Sys2Proof.Machine.execDrive v r s
  | .driveDirect a b => Sys2Proof.Machine.execDriveDirect a b s
  | .leds x y z => Sys2Proof.Machine.execLeds x y z s
  | .drivers x => Sys2Proof.Machine.execDrivers x s
  | .pwmDrivers x y z => Sys2Proof.Machine.execPwmDrivers x y z s
  | .song k d => Sys2Proof.Machine.execSong k d s
  | .playSong k => Sys2Proof.Machine.execPlaySong k s
  | .streamStart ids => Sys2Proof.Machine.execStreamStart ids s
  | .streamPause => Sys2Proof.Machine.execStreamPause s
  | .streamResume => Sys2Proof.Machine.execStreamResume s
  | .setClock day hour minute => Sys2Proof.Machine.execSetClock day hour minute s
  | .setSchedule en hh mm => Sys2Proof.Machine.execSetSchedule en hh mm s
  | .baud code => Sys2Proof.Machine.execBaud code s
  | .query id => Sys2Proof.Machine.execQuery id s
  | .queryList ids => Sys2Proof.Machine.execQueryList ids s
  | .getScript => Sys2Proof.Machine.execGetScript s

end Sys2Proof.Machine
end

