-- ==== Sys2Proof/Machine/Feed.lean ====
section
/-!
DEFINITION. One FR step on a received byte (decode, then the meaning), FR's whole step as one function on the
tuple (42_stream_framer.md rule R126), and `FEED` (R127).
-/

namespace Sys2Proof.Machine

open Sys2Proof

/-- One FR step: the byte gets the meaning the parse position selects (R52), and that meaning runs. -/
def feedByte (b : Byte) (s : State) : Host.Outcome State Fault Refusal :=
  exec (decodeFr s.fr.st b) s

/-- `step : State x Byte -> State x Event` of R126, over the tuple `(st, len, cnt, sum, buf)`. -/
def framerStep (cap : Nat) (f : Framer) (b : Byte) : Framer × Event :=
  match f.st with
  | .idle =>
    if b = header then ({ f with st := .waitCount }, .none) else (f, .discard b)
  | .waitCount =>
    if b = 0#8 then ({ f with st := .waitChecksum, len := 0#8, cnt := 0#8, sum := add8 header b }, .none)
    else ({ f with st := .waitBytes, len := b, cnt := 0#8, sum := add8 header b }, .none)
  | .waitBytes =>
    let f' := { f with
      cnt := f.cnt + 1#8
      sum := add8 f.sum b
      buf := if f.cnt.toNat < cap then f.buf.write f.cnt.toNat b else f.buf }
    if f.cnt + 1#8 = f.len then ({ f' with st := .waitChecksum }, .none) else (f', .none)
  | .waitChecksum =>
    if add8 f.sum b = 0#8 then ({ f with st := .idle, sum := add8 f.sum b }, .accept f.len)
    else ({ f with st := .idle, sum := add8 f.sum b }, .reject)

/-- `FEED bs` (R62, R127): one FR step per byte, in order; the events, one per byte, and the state reached. None
if some step does not answer a next state with an event. -/
def feed : List Byte → State → Option (List Event × State)
  | [], s => some ([], s)
  | b :: bs, s =>
    match feedByte b s with
    | .next t =>
      match t.event, feed bs t with
      | some e, some (es, u) => some (e :: es, u)
      | _, _ => none
    | .fault _ => none
    | .refused _ => none

end Sys2Proof.Machine
end

