-- ==== Sys2Proof/Machine/Surround.lean ====
section
/-!
DEFINITION. The surrounding software units (43_surrounding_units.md, context rules R150 to R160): outside the
block (R3), modelled as environment. They use FR and CE only through `feedByte` and its event, the command inputs,
the payload cells of an accepted frame and the channel operations (R150): none reads a register of FR.
Each operation takes a state whose running input has been taken off `inputs`.
-/

namespace Sys2Proof.Machine

open Sys2Proof

/-- Put inputs in front of those still to come: a call that has not returned, or the calls it makes. -/
def State.queue (s : State) (is : List Input) : State := { s with inputs := is ++ s.inputs }

/-! ### Link Liveness Manager -/

/-- `now >= due`, wrap-safe: `now.wrapping_sub(due)` read as a signed number of the clock's width is not negative
(R159; C5). -/
def pulseDue (bits now due : Nat) : Bool :=
  decide ((now % 2 ^ bits + (2 ^ bits - due % 2 ^ bits)) % 2 ^ bits < 2 ^ (bits - 1))

/-- `liveness(now)` (R158): when the pulse is due, the line goes high for PULSE_WIDTH and low again, and the next
one is due PULSE_PERIOD after `now`. -/
def State.liveness (s : State) (now : Nat) : State :=
  if pulseDue s.params.clockBits now s.sur.due then
    { s with
      sur := { s.sur with
        pulses := s.sur.pulses ++ [(now, s.params.pulseWidth)]
        due := (now + s.params.pulsePeriod) % 2 ^ s.params.clockBits } }
  else s

/-! ### Ad hoc Line Reader -/

/-- `\n` (R153). -/
abbrev lineFeed : Byte := 10#8

/-- `\r` (R153). -/
abbrev carriageReturn : Byte := 13#8

/-- A line without the one carriage return that may precede its terminator (R153: "optional preceding"). -/
def stripCr (l : List Byte) : List Byte :=
  if l.getLast? = some carriageReturn then l.dropLast else l

/-- The text of a finished line by the open points of R153 (U9; log 20). Whether a stored terminator counts toward
`LINE_MAX` is open too: here it does not, so a logged line can hold `LINE_MAX + 1` bytes (DESIGN CHOICE, log 20). -/
def lineText (r : LineRules) (l : List Byte) (terminated : Bool) : List Byte :=
  let body := if terminated then stripCr l else l
  let body := if r.stripLoneCr then body.filter (fun b => b != carriageReturn) else body
  if terminated && r.keepTerminator then body ++ [lineFeed] else body

/-- The line in the buffer is treated as text, logged and discarded (R153). -/
def State.finishLine (s : State) (terminated : Bool) : State :=
  { s with
    sur := { s.sur with
      lines := s.sur.lines ++ [lineText s.params.line s.sur.line terminated]
      line := [] } }

/-- `lineReader(x)` (R152, R153): the terminator or a full buffer ends the line; any other byte joins it. With
`LINE_MAX = 0`, a value the spec neither gives nor excludes, each byte but the terminator ends the line in the buffer
and, under `overflowStartsNext`, is itself the next line, of one byte; else it is dropped. A carriage return joins the buffer like
any byte and counts toward `LINE_MAX`, so after `LINE_MAX` bytes it overflows (DESIGN CHOICE, both: log 20). -/
def State.lineReader (s : State) (x : Byte) : State :=
  if x = lineFeed then s.finishLine true
  else if s.sur.line.length < s.params.line.maxLen then
    let t := { s with sur := { s.sur with line := s.sur.line ++ [x] } }
    if s.params.line.finishAtMax && decide (s.params.line.maxLen ≤ s.sur.line.length + 1) then t.finishLine false else t
  else
    let t := s.finishLine false
    if s.params.line.overflowStartsNext then { t with sur := { t.sur with line := [x] } } else t

/-- A header byte has arrived while a line is partly filled (R152: kept, flushed or dropped, not in the document). -/
def State.lineAtHeader (s : State) : State :=
  if s.sur.line = [] then s
  else
    match s.params.line.atHeader with
    | .keep => s
    | .flush => s.finishLine false
    | .drop => { s with sur := { s.sur with line := [] } }

/-! ### pollOnce -/

/-- After the FR step of `pollOnce` (R151), by its event alone: a discarded byte goes to the line reader; a completed
frame ends the call; otherwise the loop goes on. The first `None` after a discarded byte is the header's, so it is at
a `None` that a partly filled line meets a header (R152; log 20); at the later ones of the frame the line is empty or
the policy is to keep it. -/
def State.afterPolled (t : State) (now : Nat) : State :=
  match t.event with
  | some (.discard x) => (t.lineReader x).queue [.poll now]
  | some (.accept n) => t.answer (.polled (some (n, t.payload n)))
  | some .reject => t.answer (.polled none)
  | some .none => t.lineAtHeader.queue [.poll now]
  | none => t

/-- One turn of the loop of `pollOnce(now)` (R151, D17): with no byte waiting the call returns `false`; else one
byte is read, the liveness check runs (C5), and FR takes the byte. -/
def runPoll (now : Nat) (s : State) : Host.Outcome State Fault Refusal :=
  match s.chanRead with
  | none => .next (s.answer (.polled none))
  | some (b, t) =>
    match feedByte b (t.liveness now) with
    | .next u => .next (u.afterPolled now)
    | .fault r => .fault r
    | .refused r => .refused r

/-! ### Synchronous Response Reader -/

/-- The wait for one byte (R154): a waiting byte is taken at once; else the reader waits for the next arrival, and
gives up when BYTE_TIMEOUT ticks have passed since the start of that byte's wait. None is `Timeout`. FR does not
see the byte (R219). -/
def State.takeByte (s : State) : Option Byte × State :=
  match s.chanRead with
  | some (b, t) => (some b, t)
  | none =>
    match s.sur.arrivals with
    | [] => (none, { s with sur := { s.sur with waited := s.sur.waited + s.params.byteTimeout } })
    | (d, b) :: rest =>
      if d < s.params.byteTimeout then
        (some b, { s with sur := { s.sur with arrivals := rest, waited := s.sur.waited + d } })
      else
        (none, { s with
          sur := { s.sur with
            arrivals := (d - s.params.byteTimeout, b) :: rest
            waited := s.sur.waited + s.params.byteTimeout } })

/-- `readExact` (R154), one byte a step: `n` bytes still to read, `got` read so far, which is what the destination
holds if the call times out. -/
def runReadExact (n : Nat) (got : List Byte) (s : State) : Host.Outcome State Fault Refusal :=
  match n with
  | 0 => .next (s.answer (.bytes got))
  | n + 1 =>
    match s.takeByte with
    | (some b, t) => .next (t.queue [.readExact n (got ++ [b])])
    | (none, t) => .next (t.answer (.timeout got))

/-- Single-sensor query (R155): the command, then `readExact(SENSOR_LEN(id))`. -/
def runQuerySensor (id : Byte) (s : State) : Host.Outcome State Fault Refusal :=
  .next (s.queue [.command (.query id), .readExact (s.params.sensorLenOf id) []])

/-- Multi-ID query (R156): the command, then `readExact(n)` with the caller's expected total. -/
def runQueryMulti (ids : List Byte) (n : Nat) (s : State) : Host.Outcome State Fault Refusal :=
  .next (s.queue [.command (.queryList ids), .readExact n []])

/-- `getScript` (R157): the request, then the count byte. -/
def runGetScript (cap : Nat) (s : State) : Host.Outcome State Fault Refusal :=
  .next (s.queue [.command .getScript, .scriptCount cap])

/-- The count byte of `getScript` (R157): above SCRIPT_MAX it is a protocol violation, reported with the count 0, and
nothing more is read. -/
def runScriptCount (cap : Nat) (s : State) : Host.Outcome State Fault Refusal :=
  match s.takeByte with
  | (some c, t) =>
    if c.toNat > Config.scriptMax then .next (t.answer (.violation 0#8))
    else .next (t.queue [.scriptBody c.toNat cap c []])
  | (none, t) => .next (t.answer (.timeout []))

/-- The script bytes of `getScript` (R157): at most `cap` are copied, the true count is returned; a Timeout leaves in
the destination what was copied before it. -/
def runScriptBody (left cap : Nat) (count : Byte) (got : List Byte) (s : State) :
    Host.Outcome State Fault Refusal :=
  match left with
  | 0 => .next (s.answer (.script count got))
  | left + 1 =>
    match s.takeByte with
    | (some x, t) => .next (t.queue [.scriptBody left cap count (if got.length < cap then got ++ [x] else got)])
    | (none, t) => .next (t.answer (.timeout got))

/-! ### The consumer of Accept -/

/-- The consumer reads cell `i` (R30): defined for `i < CAP` only. -/
def runReadCell (i : Nat) (s : State) : Host.Outcome State Fault Refusal :=
  if i < s.params.cap then .next (s.answer (.cell (s.cell i))) else .fault (.noSuchCell i)

end Sys2Proof.Machine
end

