-- ==== Sys2Proof/Machine/Fetch.lean ====
section
/-!
DEFINITION. What one step does with the input it takes (60_exceptions.md rule R187), and where the host's table
word is put so that the next step runs it.
-/

namespace Sys2Proof.Machine

open Sys2Proof

/-- `feed`: the oldest waiting byte is read (R34, R215: only when one waits) and given to FR. The caller hands over
this byte without `pollOnce`: no liveness check runs, and a byte that FR discards goes to no line reader (DESIGN
CHOICE, log 28). -/
def runFeed (s : State) : Host.Outcome State Fault Refusal :=
  match s.chanRead with
  | none => .refused .chanReadEmpty
  | some (b, t) => feedByte b t

/-- `command i`: CE runs a command (R80). -/
def runCommand (i : Instr) (s : State) : Host.Outcome State Fault Refusal :=
  if i.isWellFormedCommand then exec i s else .refused .notACommand

/-- What a step does with one input, in the state that no longer holds it. -/
def runInput (i : Input) (s : State) : Host.Outcome State Fault Refusal :=
  match i with
  | .feed => runFeed s
  | .command c => runCommand c s
  | .reset => .next s.resetFramer
  | .arrive b => .next (s.chanArrive b)
  | .transmit => .next s.chanTransmit
  | .openChannel r => .next (s.chanReopen r)
  | .poll now => runPoll now s
  | .readExact n got => runReadExact n got s
  | .querySensor id => runQuerySensor id s
  | .queryMulti ids n => runQueryMulti ids n s
  | .getScript cap => runGetScript cap s
  | .scriptCount cap => runScriptCount cap s
  | .scriptBody left cap count got => runScriptBody left cap count got s
  | .readCell i => runReadCell i s

/-- The next input is taken and run, the ports empty; with no input nothing happens (R17, R230). -/
def runNext (s : State) : Host.Outcome State Fault Refusal :=
  match s.inputs with
  | [] => .next s.clearPorts
  | i :: rest => runInput i { s.clearPorts with inputs := rest }

/-- A state whose next step runs `i`: a command stands first in `inputs`; a received byte stands first in the
receive queue, `feed` first in `inputs`, and FR in the parse position that selects `i` (log 16). -/
def State.place (s : State) (i : Instr) : State :=
  match i.selectedIn with
  | none => { s with inputs := .command i :: s.inputs }
  | some st =>
    { s with
      fr := { s.fr with st := st }
      chan := { s.chan with rx := encode s.params i ++ s.chan.rx }
      inputs := .feed :: s.inputs }

/-- `State.place` for a table word; a word that decodes to nothing places nothing. -/
def State.placeWord (s : State) (nbits w : Nat) : State :=
  match decodeTableWord nbits w with
  | some i => s.place i
  | none => s

end Sys2Proof.Machine
end

