-- ==== Sys2Proof/Machine/Step.lean ====
section
/-!
DEFINITION. The step, and the host's placing of a table word where the step takes its next instruction.
-/

namespace Sys2Proof.Machine

open Sys2Proof

/-- One step: the next input is run (Machine/Fetch.lean). -/
def step (s : State) : Host.Outcome State Fault Refusal := runNext s

/-- The instruction of a table word, stored where `step` takes its next instruction (log 16). -/
def State.withFetchWord (s : State) (nbits w : Nat) : State := s.placeWord nbits w

end Sys2Proof.Machine
end

