-- ==== Sys2Proof/Safety.lean ====
section
/-!
DEFINITION. What the statements call a good state: the invariant of 10_state.md rule R16 with the buffer's
canonical form, and when a step is safe.
-/

namespace Sys2Proof

/-- The caller contracts the document states, none of which CE checks (R59, R90, R95, R97): an even number of at
most 32 note bytes, day, hour and minute in their ranges, a baud code of the enumeration. -/
def Instr.callerContract (p : Params) : Instr → Prop
  | .song _ d => d.length % 2 = 0 ∧ d.length ≤ Config.songMaxBytes
  | .setClock day hour minute => day.toNat ≤ 6 ∧ hour.toNat ≤ 23 ∧ minute.toNat ≤ 59
  | .setSchedule _ hh mm => (∀ h ∈ hh, h.toNat ≤ 23) ∧ ∀ m ∈ mm, m.toNat ≤ 59
  | .baud code => lookupByte p.rate code ≠ none
  | _ => True

end Sys2Proof

namespace Sys2Proof.Machine

open Sys2Proof

/-- `p` is the payload consumed so far of the open frame, as far as FR's registers and buffer tell (R16): its
length is `cnt`, the running sum is that of header, length and `p`, and the cells below `min(cnt, CAP)` hold it.
`k` numbers the free values of the unlisted cells. -/
def Framer.consumed (cap k : Nat) (f : Framer) (p : List Byte) : Prop :=
  p.length = f.cnt.toNat ∧
  f.sum.toNat = (19 + f.len.toNat + byteSum p) % 256 ∧
  ∀ i, i < min f.cnt.toNat cap → some (f.buf.read k i) = p[i]?

/-- The invariant of R16, with the buffer in canonical form and inside its bounds (R15, R30). -/
def Framer.inv (cap k : Nat) (f : Framer) : Prop :=
  f.buf.wf ∧
  (∀ c ∈ f.buf, c.1 < cap) ∧
  (f.st = .waitBytes → f.cnt.toNat < f.len.toNat) ∧
  (f.st = .waitChecksum → f.cnt = f.len) ∧
  (f.st = .waitBytes ∨ f.st = .waitChecksum → ∃ p, f.consumed cap k p)

/-- The invariant of a state. -/
def State.inv (s : State) : Prop := s.fr.inv s.params.cap s.cells

/-- `n` steps, stopping at the first fault or refusal: a finite run. -/
def steps : Nat → State → Host.Outcome State Fault Refusal
  | 0, s => .next s
  | n + 1, s =>
    match step s with
    | .next t => steps n t
    | .fault r => .fault r
    | .refused r => .refused r

/-- A step is safe where it answers a next state. -/
def State.safe (s : State) : Prop := ∃ t, step s = .next t

end Sys2Proof.Machine
end

