-- ==== Sys2Proof/Certificates/Slice0/Obligations.lean ====
section
/-!
DEFINITION. The statements for the provers. Each docstring names the rule of spec/ it formalises.
-/

open Sys2Proof Sys2Proof.Machine

/-! ### FR, one instruction at a time -/

/-- R121, `FR.HDR`: encoding and pseudocode. Everything but `st` keeps its value. -/
def Obligations.FrHdrOpensFrame : Prop :=
  decodeFr .idle 19#8 = .frHdr ∧
  ∀ s : State, exec .frHdr s =
    .next { s with fr := { s.fr with st := .waitCount }, event := some .none }

/-- R122, `FR.SKIP`: encoding and pseudocode. No register and no buffer cell changes. (That the byte is reported, by
the event `Discard`, is the spec's own decision D15; log 26.) -/
def Obligations.FrSkipDiscards : Prop :=
  ∀ (s : State) (b : Byte), b.toNat ≠ 19 →
    decodeFr .idle b = .frSkip b ∧
    exec (.frSkip b) s = .next { s with event := some (.discard b) }

/-- R123, `FR.COUNT`: encoding and pseudocode, the sum on natural numbers. (That the loaded sum counts the header is the
spec's resolution C1, that `st` becomes WaitChecksum in the length byte's own step at n = 0 its decision D21; log 26.) -/
def Obligations.FrCountLoadsLength : Prop :=
  ∀ (s : State) (n : Byte),
    decodeFr .waitCount n = .frCount n ∧
    ∃ t, exec (.frCount n) s = .next t ∧
      t.fr.len = n ∧ t.fr.cnt = 0#8 ∧ t.fr.sum.toNat = (19 + n.toNat) % 256 ∧
      t.fr.st = (if n = 0#8 then .waitChecksum else .waitBytes) ∧
      t.event = some .none ∧
      t = { s with fr := { t.fr with buf := s.fr.buf }, event := t.event }

/-- R124, `FR.DATA`: encoding and pseudocode in every state of the rule (`cnt < len`, R16), with its frame: the
stored byte's index is `cnt`, every other cell reads as before, and a byte beyond CAP is not stored. (That `st` becomes
WaitChecksum in the last payload byte's own step is the spec's decision D21; log 26.) -/
def Obligations.FrDataTakesPayloadByte : Prop :=
  ∀ (s : State) (b : Byte), s.fr.st = .waitBytes → s.fr.cnt.toNat < s.fr.len.toNat →
    decodeFr s.fr.st b = .frData b ∧
    ∃ t, exec (.frData b) s = .next t ∧
      t.fr.sum.toNat = (s.fr.sum.toNat + b.toNat) % 256 ∧
      t.fr.cnt.toNat = s.fr.cnt.toNat + 1 ∧
      t.fr.st = (if s.fr.cnt.toNat + 1 = s.fr.len.toNat then .waitChecksum else .waitBytes) ∧
      (s.fr.cnt.toNat < s.params.cap → t.cell s.fr.cnt.toNat = b) ∧
      (∀ a, (s.params.cap ≤ s.fr.cnt.toNat ∨ a ≠ s.fr.cnt.toNat) → t.cell a = s.cell a) ∧
      t.fr.len = s.fr.len ∧ t.event = some .none ∧
      t = { s with fr := t.fr, event := t.event }

/-- R125, R181, R189, `FR.CHK`: encoding and pseudocode; the error is `ChecksumMismatch` exactly at `Reject`. Only
`st` and `sum` are written. (That `Accept` carries the frame's own length is decision D16; log 26.) -/
def Obligations.FrChkAcceptsOrRejects : Prop :=
  ∀ (s : State) (c : Byte),
    decodeFr .waitChecksum c = .frChk c ∧
    ∃ t, exec (.frChk c) s = .next t ∧
      t.fr.st = .idle ∧ t.fr.sum.toNat = (s.fr.sum.toNat + c.toNat) % 256 ∧
      t.event = some (if (s.fr.sum.toNat + c.toNat) % 256 = 0 then .accept s.fr.len else .reject) ∧
      t.event.bind Event.err? =
        (if (s.fr.sum.toNat + c.toNat) % 256 = 0 then none else some .checksumMismatch) ∧
      t = { s with fr := { s.fr with st := t.fr.st, sum := t.fr.sum }, event := t.event }

/-- R126: decoding a byte and running its meaning is the whole step of the rule, and touches nothing but FR and the
event. (The rule holds the resolution C1 and the decisions D15, D16 and D21; log 26.) -/
def Obligations.FeedByteIsWholeStep : Prop :=
  ∀ (s : State) (b : Byte), feedByte b s =
    .next { s with
      fr := (framerStep s.params.cap s.fr b).1
      event := some (framerStep s.params.cap s.fr b).2 }

/-- R52: for every parse position and every byte exactly one row applies. -/
def Obligations.DecodeMapIsExact : Prop :=
  ∀ (p : Params) (st : ParseState) (b : Byte) (i : Instr),
    decodeFr st b = i ↔ (i.wellFormed = true ∧ i.selectedIn = some st ∧ encode p i = [b])

/-- R15, R121 to R125: what each FR instruction does to the payload buffer, read cell by cell. Only FR.DATA stores,
at index `cnt`, and only below CAP. (That the buffer is FR's, with a static CAP, is decision D5; log 26.) -/
def Obligations.FramerBufferFrame : Prop :=
  ∀ (s t : State) (i : Instr), i.isCommand = false → exec i s = .next t →
    (∀ b, i = .frData b → s.fr.cnt.toNat < s.params.cap →
      t.cell s.fr.cnt.toNat = b ∧ ∀ a, a ≠ s.fr.cnt.toNat → t.cell a = s.cell a) ∧
    ((∀ b, i ≠ .frData b) ∨ s.params.cap ≤ s.fr.cnt.toNat → ∀ a, t.cell a = s.cell a)

/-! ### The step -/

/-- A step runs the decoded instruction: `feed` reads the oldest waiting byte and runs what FR's parse position
decodes it to (R34, R42, R52), `command` runs the command (R80); the input is taken and the ports are empty. -/
def Obligations.StepRunsDecodedInstruction : Prop :=
  (∀ (s : State) (b : Byte) (rx : List Byte) (rest : List Input),
    s.inputs = .feed :: rest → s.chan.rx = b :: rx →
    step s = exec (decodeFr s.fr.st b)
      { s with inputs := rest, event := none, report := none, chan := { s.chan with rx := rx } }) ∧
  (∀ (s : State) (i : Instr) (rest : List Input),
    s.inputs = .command i :: rest → i.isWellFormedCommand = true →
    step s = exec i { s with inputs := rest, event := none, report := none })

/-- Where an instruction is placed, the next step runs it: a command as it stands, a received byte in the parse
position that selects it (log 16). -/
def Obligations.PlacedInstructionRunsNext : Prop :=
  ∀ (s : State) (i : Instr), i.wellFormed = true →
    (i.isCommand = true → step (s.place i) = exec i s.clearPorts) ∧
    (∀ st, i.selectedIn = some st →
      step (s.place i) = exec i { s.clearPorts with fr := { s.fr with st := st } })

/-- Words written out from R52, R54 and R57's default column decode to their instructions (the values are PRESUMED,
log 2; how a table word's bytes are laid out, and that 0x13 is read as FR.HDR and not as MODE 19, is the model's
convention, log 16). -/
def Obligations.WrittenOutWordsDecode : Prop :=
  decodeTableWord 8 0x13 = some .frHdr ∧
  decodeTableWord 8 0x80 = some .start ∧
  decodeTableWord 40 0x89FF3801F4 = some (.drive (-200) 500) ∧
  decodeTableWord 56 0x8C00023C203E20 = some (.song 0 [60, 32, 62, 32]) ∧
  decodeTableWord 16 0x9600 = some .streamPause ∧
  decodeTableWord 16 0x9601 = some .streamResume ∧
  decodeTableWord 16 0x810B = some (.baud 11) ∧
  decodeTableWord 32 0x94020719 = some (.streamStart [7, 25])

/-- The only stops: the consumer's read of a cell that does not exist (R30), reading the channel with no byte
waiting (U4, R215), and a command input that is none of R54. Nothing else a step takes can fault or be refused. (That
these three stop, and by which name, is the model's choice: log 8, 17, 24.) -/
def Obligations.StepStopsOnlyThere : Prop :=
  ∀ s : State,
    (∀ r, step s = .fault r ↔
      ∃ i rest, s.inputs = .readCell i :: rest ∧ s.params.cap ≤ i ∧ r = .noSuchCell i) ∧
    (∀ r, step s = .refused r ↔
      ((∃ rest, s.inputs = .feed :: rest ∧ s.chan.rx = [] ∧ r = .chanReadEmpty) ∨
       (∃ i rest, s.inputs = .command i :: rest ∧ i.isWellFormedCommand = false ∧ r = .notACommand)))

/-- R19: an event is not stored; no step reads the event (or the report) of an earlier one. -/
def Obligations.StepReadsNoEarlierEvent : Prop :=
  ∀ (s : State) (e : Option Event) (r : Option Report),
    step { s with event := e, report := r } = step s

/-- R20: the configuration is static: no step writes a parameter. -/
def Obligations.StepKeepsParameters : Prop :=
  ∀ s t : State, step s = .next t → t.params = s.params

/-- R17: FR's state, the payload cells with it, changes only where a received byte is handed to FR (`feed`, or
`pollOnce` with a byte waiting) or at reset. (The inputs are the model's; log 1, log 19.) -/
def Obligations.FramerChangesOnlyByByteOrReset : Prop :=
  ∀ s t : State, step s = .next t → (t.fr ≠ s.fr ∨ ∃ a, t.cell a ≠ s.cell a) →
    ((∃ rest, s.inputs = .feed :: rest) ∨ (∃ now rest, s.inputs = .poll now :: rest)) ∧ s.chan.rx ≠ [] ∨
    ∃ rest, s.inputs = .reset :: rest

/-- R210, R212: `Reset` puts FR into its reset state, emits no event, consumes no byte and leaves the channel and
everything else as it is. (Of the buffer nothing is said: its cells are free anew, R22, log 4. The reset values are the
spec's own decision D8; log 5.) -/
def Obligations.ResetRestartsFramerOnly : Prop :=
  ∀ (s : State) (rest : List Input), s.inputs = .reset :: rest →
    ∃ t, step s = .next t ∧
      t.fr.st = .idle ∧ t.fr.len = 0#8 ∧ t.fr.cnt = 0#8 ∧ t.fr.sum = 0#8 ∧
      t.event = none ∧ t.chan = s.chan ∧
      t = { s with fr := t.fr, cells := t.cells, inputs := rest, event := none, report := none }

/-- R22: the values after reset (all but `st` the spec's own decision D8; log 5). -/
def Obligations.ResetValues : Prop :=
  State.reset.fr.st = .idle ∧ State.reset.fr.len.toNat = 0 ∧ State.reset.fr.cnt.toNat = 0 ∧
  State.reset.fr.sum.toNat = 0 ∧ State.reset.event = none

/-- R16 at reset. -/
def Obligations.InvariantAtReset : Prop := State.reset.inv

/-- R16: every step keeps the invariant, from every state that has it: the position facts (`cnt < len` in
WaitBytes, `cnt = len` in WaitChecksum), the running sum and the stored prefix of the payload, and the buffer's
canonical form and bounds. (R16 rests on the resolutions C1 and C2 and the decision D21; log 26. The canonical form is
the model's; log 4.) -/
def Obligations.StepKeepsInvariant : Prop :=
  ∀ s t : State, s.inv → step s = .next t → t.inv

/-! ### FR, sequences of bytes -/

/-- R127: `FEED (s ++ t)` is `FEED s` and then `FEED t` from the state reached (and so R128: how the bytes are cut
has no effect). -/
def Obligations.FeedOfAppend : Prop :=
  ∀ (xs ys : List Byte) (q : State),
    feed (xs ++ ys) q =
      (feed xs q).bind fun r => (feed ys r.2).map fun u => (r.1 ++ u.1, u.2)

/-- R120, R191: a step is total. Every byte sequence can be fed from every state, with one event per byte, and
touches nothing but FR and the event port. -/
def Obligations.FeedIsTotal : Prop :=
  ∀ (bs : List Byte) (q : State), ∃ es r,
    feed bs q = some (es, r) ∧ es.length = bs.length ∧
    r = { q with fr := r.fr, event := r.event }

/-- R134 (P1): every well-formed frame is accepted from Idle, whatever CAP, with the payload recovered. (For the
lengths 254 and 255 this rests on decision D7, R137; log 25. That `Accept` carries the frame's own length is
decision D16; log 26.) -/
def Obligations.WellFormedFrameAccepted : Prop :=
  ∀ (p : List Byte) (s : State), p.length ≤ 255 → s.fr.st = .idle →
    ∃ t, feed (frame p) s =
        some (List.replicate (p.length + 2) Event.none ++ [.accept (BitVec.ofNat 8 p.length)], t) ∧
      t.fr.st = .idle ∧
      ∀ i, i < min p.length s.params.cap → some (t.cell i) = p[i]?

/-- R135 (P2): changing any one payload byte, or the checksum byte alone, of a well-formed frame gives `Reject` at
the last byte. (For the lengths 254 and 255 this rests on decision D7, R137; log 25.) -/
def Obligations.SingleByteCorruptionRejected : Prop :=
  ∀ (p : List Byte) (s : State), p.length ≤ 255 → s.fr.st = .idle →
    (∀ (i : Nat) (x : Byte), i < p.length → p[i]? ≠ some x →
      ∃ t, feed ((frame p).set (i + 2) x) s =
        some (List.replicate (p.length + 2) Event.none ++ [.reject], t)) ∧
    (∀ x : Byte, x ≠ frameChecksum p →
      ∃ t, feed ((frame p).set (p.length + 2) x) s =
        some (List.replicate (p.length + 2) Event.none ++ [.reject], t))

/-- R136 (P4): bytes other than 19 fed in Idle leave FR as it is and give one `Discard` each, so that noise before
anything changes nothing of what follows. (The event `Discard` is decision D15; log 26.) -/
def Obligations.NoiseLeavesFramerIdle : Prop :=
  ∀ (noise : List Byte) (s : State), s.fr.st = .idle → (∀ b ∈ noise, b.toNat ≠ 19) →
    ∃ q, feed noise s = some (noise.map Event.discard, q) ∧ q.fr = s.fr ∧
      ∀ bs es t, feed bs s = some (es, t) →
        ∃ u, feed (noise ++ bs) s = some (noise.map Event.discard ++ es, u) ∧ u.fr = t.fr

/-- R131: what `Accept(n)` promises: the last `n + 3` bytes fed were a well-formed frame whose header was consumed
in Idle, `len = n`, and the buffer holds the payload up to CAP. (That `n` is the frame's own length is decision D16;
log 26. For n of 254 and 255 this rests on decision D7; log 25.) -/
def Obligations.AcceptMeansFrame : Prop :=
  ∀ (bs : List Byte) (s t : State) (es : List Event) (n : Byte),
    s.fr.st = .idle → feed bs s = some (es ++ [.accept n], t) →
    ∃ before p c es' r,
      bs = before ++ (19#8 :: n :: (p ++ [c])) ∧ p.length = n.toNat ∧
      (19 + n.toNat + byteSum p + c.toNat) % 256 = 0 ∧
      feed before s = some (es', r) ∧ r.fr.st = .idle ∧
      t.fr.len = n ∧ ∀ i, i < min n.toNat s.params.cap → some (t.cell i) = p[i]?

/-- R129, R138: once the length byte `n` is due, FR takes it, then exactly `n` bytes, then one checksum byte,
whatever their values, with no event before the last, which is `Accept` or `Reject`; then it is in Idle.
(`Accept` of the frame's own length is decision D16, log 26; lengths 254 and 255 rest on decision D7, log 25.) -/
def Obligations.OpenFrameTakesItsBytes : Prop :=
  ∀ (s : State) (n : Byte) (body : List Byte), s.fr.st = .waitCount → body.length = n.toNat + 1 →
    ∃ e t, feed (n :: body) s = some (List.replicate (n.toNat + 1) Event.none ++ [e], t) ∧
      (e = .accept n ∨ e = .reject) ∧ t.fr.st = .idle

/-- R130, R182: truncation is silent: the events and the registers `st, len, cnt, sum` do not depend on CAP or on
what the buffer holds. (That `Accept` carries the frame's own length and not what CAP leaves of it is decision D16;
log 26.) -/
def Obligations.EventsIndependentOfBuffer : Prop :=
  ∀ (bs : List Byte) (s s' : State),
    s'.fr.st = s.fr.st → s'.fr.len = s.fr.len → s'.fr.cnt = s.fr.cnt → s'.fr.sum = s.fr.sum →
    ∀ es es' t t', feed bs s = some (es, t) → feed bs s' = some (es', t') →
      es' = es ∧ t'.fr.st = t.fr.st ∧ t'.fr.len = t.fr.len ∧ t'.fr.cnt = t.fr.cnt ∧ t'.fr.sum = t.fr.sum

/-- R34, R42: the receive queue is FR's instruction stream: `feed` inputs take the waiting bytes one each, in
arrival order, and what FR does is `FEED` of them (the inputs are the model's, log 1; that the queue is the
instruction stream is decision D11, log 26). -/
def Obligations.FeedInputsTakeQueueInOrder : Prop :=
  ∀ (bs rest : List Byte) (more : List Input) (s : State),
    s.chan.rx = bs ++ rest → s.inputs = List.replicate bs.length Input.feed ++ more →
    ∃ es u t, feed bs s = some (es, u) ∧ steps bs.length s = .next t ∧
      t.fr = u.fr ∧ t.chan = { s.chan with rx := rest } ∧ t.inputs = more ∧
      (bs ≠ [] → t.event = es.getLast?)

/-! ### CE -/

/-- R81 to R84: the mode changes each write their one byte and do nothing else. (`MODE op` is the spec's own general
form, decision D13; log 26. START, SAFE and FULL are general knowledge, G2; log 2.) -/
def Obligations.ModeCommandsWrite : Prop :=
  ∀ (s : State) (op : Byte),
    exec .start s = .next { s with chan := { s.chan with tx := s.chan.tx ++ [s.params.op.start] } } ∧
    exec .safe s = .next { s with chan := { s.chan with tx := s.chan.tx ++ [s.params.op.safe] } } ∧
    exec .full s = .next { s with chan := { s.chan with tx := s.chan.tx ++ [s.params.op.full] } } ∧
    exec (.mode op) s = .next { s with chan := { s.chan with tx := s.chan.tx ++ [op] } }

/-- R85, R86, with R35 and R55: the motion commands write the opcode and the two operands as two's-complement
16-bit patterns, high byte first, for every value of the range, and do nothing else. -/
def Obligations.MotionCommandsWrite : Prop :=
  ∀ (s : State) (v r : Int), isS16 v = true → isS16 r = true →
    ∃ vh vl rh rl : Byte,
      (256 * vh.toNat + vl.toNat : Int) = (if 0 ≤ v then v else v + 65536) ∧
      (256 * rh.toNat + rl.toNat : Int) = (if 0 ≤ r then r else r + 65536) ∧
      exec (.drive v r) s =
        .next { s with chan := { s.chan with tx := s.chan.tx ++ [s.params.op.drive, vh, vl, rh, rl] } } ∧
      exec (.driveDirect v r) s =
        .next { s with chan := { s.chan with tx := s.chan.tx ++ [s.params.op.driveDirect, vh, vl, rh, rl] } }

/-- R87 to R89, R95: the accessory commands and the clock command write their bytes in the listed order, unchanged,
and do nothing else. (The order of SET_CLOCK's bytes is decision D12; log 26. The payloads of DRIVERS and
PWM_DRIVERS are general knowledge, G5, G6; log 2.) -/
def Obligations.ByteOperandCommandsWrite : Prop :=
  ∀ (s : State) (x y z : Byte),
    exec (.leds x y z) s =
      .next { s with chan := { s.chan with tx := s.chan.tx ++ [s.params.op.leds, x, y, z] } } ∧
    exec (.drivers x) s =
      .next { s with chan := { s.chan with tx := s.chan.tx ++ [s.params.op.drivers, x] } } ∧
    exec (.pwmDrivers x y z) s =
      .next { s with chan := { s.chan with tx := s.chan.tx ++ [s.params.op.pwmDrivers, x, y, z] } } ∧
    exec (.setClock x y z) s =
      .next { s with chan := { s.chan with tx := s.chan.tx ++ [s.params.op.setClock, x, y, z] } }

/-- R90, R91, with R56a: the count byte of SONG is half the data's length, rounded down, modulo 256; all of the data
is written, whatever its length; nothing else happens. (What is written for odd or long data is decision D14;
log 26. The payload of PLAY_SONG is general knowledge, G7; log 2.) -/
def Obligations.SongCommandsWrite : Prop :=
  ∀ (s : State) (k : Byte) (d : List Byte),
    (∃ c : Byte, c.toNat = (d.length / 2) % 256 ∧
      exec (.song k d) s =
        .next { s with chan := { s.chan with tx := s.chan.tx ++ ([s.params.op.song, k, c] ++ d) } }) ∧
    exec (.playSong k) s =
      .next { s with chan := { s.chan with tx := s.chan.tx ++ [s.params.op.play, k] } }

/-- R92 to R94, with R56c: stream start writes the number of identifiers modulo 256 and the identifiers; pause and
resume write the shared opcode and their argument; nothing else happens (FR is not told). (That STREAM_START has
the count and then the identifiers is decision D12; log 26. The payloads of all three are general knowledge, G8;
log 2.) -/
def Obligations.StreamCommandsWrite : Prop :=
  ∀ (s : State) (ids : List Byte),
    (∃ c : Byte, c.toNat = ids.length % 256 ∧
      exec (.streamStart ids) s =
        .next { s with chan := { s.chan with tx := s.chan.tx ++ ([s.params.op.stream, c] ++ ids) } }) ∧
    exec .streamPause s =
      .next { s with chan := { s.chan with tx := s.chan.tx ++ [s.params.op.streamCtl, s.params.pauseArg] } } ∧
    exec .streamResume s =
      .next { s with chan := { s.chan with tx := s.chan.tx ++ [s.params.op.streamCtl, s.params.resumeArg] } }

/-- R96, R56b: the schedule command writes the opcode, a mask whose bit `i` is day `i` and whose bit 7 is 0, and
the fourteen time bytes, hour before minute, day by day; nothing else happens. (That bit `i` is day `i`, Sunday first,
and hour before minute is the spec's reading, decision D12; log 26.) -/
def Obligations.ScheduleCommandWrites : Prop :=
  ∀ (s : State) (en : List Bool) (hh mm : List Byte), en.length = 7 → hh.length = 7 → mm.length = 7 →
    ∃ (mask : Byte) (times : List Byte),
      exec (.setSchedule en hh mm) s =
        .next { s with chan := { s.chan with tx := s.chan.tx ++ (s.params.op.schedule :: mask :: times) } } ∧
      (∀ i, i < 7 → some (mask.getLsbD i) = en[i]?) ∧ mask.getLsbD 7 = false ∧
      times.length = 14 ∧ ∀ i, i < 7 → times[2 * i]? = hh[i]? ∧ times[2 * i + 1]? = mm[i]?

/-- R97, R41: BAUD writes its two bytes, every byte written so far leaves at the old rate, in order, none dropped,
and the channel is reopened at the mapped rate; FR is not touched. Of the receive queue nothing is said (U6), nor
of the rate for a code outside the table (U3). `wire` is the model's record (log 12). -/
def Obligations.BaudDrainsThenReopens : Prop :=
  ∀ (s : State) (code : Byte),
    ∃ t, exec (.baud code) s = .next t ∧
      t.chan.tx = [] ∧
      t.chan.wire = s.chan.wire ++ (s.chan.tx ++ [s.params.op.baud, code]).map (fun b => (s.chan.rate, b)) ∧
      (∀ r, lookupByte s.params.rate code = some r → t.chan.rate = r) ∧
      t = { s with chan := t.chan, fresh := t.fresh }

/-- R98 to R100, with R56c: the request commands write their bytes and do nothing else. (QUERY_LIST's order is named by
decision D12 too; log 26. That GET_SCRIPT is one opcode byte is general knowledge, G9; log 2.) -/
def Obligations.RequestCommandsWrite : Prop :=
  ∀ (s : State) (id : Byte) (ids : List Byte),
    exec (.query id) s =
      .next { s with chan := { s.chan with tx := s.chan.tx ++ [s.params.op.sensors, id] } } ∧
    (∃ c : Byte, c.toNat = ids.length % 256 ∧
      exec (.queryList ids) s =
        .next { s with chan := { s.chan with tx := s.chan.tx ++ ([s.params.op.queryList, c] ++ ids) } }) ∧
    exec .getScript s =
      .next { s with chan := { s.chan with tx := s.chan.tx ++ [s.params.op.showScript] } }

/-- R80: every command but BAUD performs exactly `ChanWrite(enc(C))` and nothing else. (The encodings hold the decisions
D12 to D14, log 26, and the shapes of general knowledge, log 2.) -/
def Obligations.EveryCommandWritesItsEncoding : Prop :=
  ∀ (s : State) (i : Instr), i.isWellFormedCommand = true → (∀ code, i ≠ .baud code) →
    exec i s = .next { s with chan := { s.chan with tx := s.chan.tx ++ encode s.params i } }

/-- R18, R42, R43: a command leaves FR, every cell of the payload buffer and both ports as they are, and, but for
BAUD, the receive queue, the rate and the wire; an FR step leaves the channel as it is. -/
def Obligations.UnitsDoNotTouchEachOther : Prop :=
  ∀ (s t : State) (i : Instr), exec i s = .next t →
    (i.isCommand = true → t.fr = s.fr ∧ (∀ a, t.cell a = s.cell a) ∧ t.event = s.event ∧ t.report = s.report ∧
      ((∀ code, i ≠ .baud code) →
        t.chan.rx = s.chan.rx ∧ t.chan.rate = s.chan.rate ∧ t.chan.wire = s.chan.wire)) ∧
    (i.isCommand = false → t.chan = s.chan)

/-- R97: of the block's operations BAUD "is the only operation that mutates channel configuration"; outside the block
the surrounding software opens the channel (R213). -/
def Obligations.OnlyBaudChangesRate : Prop :=
  ∀ s t : State, step s = .next t → t.chan.rate ≠ s.chan.rate →
    (∃ code rest, s.inputs = .command (.baud code) :: rest) ∨ ∃ r rest, s.inputs = .openChannel r :: rest

/-- R40, R41, R101: no step drops or reorders a byte on the transmit side, and only a command adds bytes: its
encoding, whole and contiguous; `wire` is the model's record (log 12). (But for the surrounding software opening the
channel over undrained bytes, R218. The encodings hold the decisions D12 to D14, log 26, and the shapes of general
knowledge, log 2.) -/
def Obligations.TransmitSideKeepsEveryByte : Prop :=
  ∀ s t : State, step s = .next t → (∀ r rest, s.inputs = .openChannel r :: rest → s.chan.tx = []) →
    t.chan.wire.map Prod.snd ++ t.chan.tx = s.chan.wire.map Prod.snd ++ s.chan.tx ++
      (match s.inputs with
       | .command i :: _ => encode s.params i
       | _ => [])

/-- R41 over a run: commands and then BAUD: all their bytes, and those queued before, leave at the old rate in
order, and nothing is left in flight at the new rate. (What has been sent is the model's record `wire`, log 12; the
commands are its inputs, log 1. Their encodings hold the decisions D12 to D14, log 26, and the shapes of general
knowledge, log 2.) -/
def Obligations.CommandsThenBaudAllSentAtOldRate : Prop :=
  ∀ (cs : List Instr) (code : Byte) (rest : List Input) (s : State),
    (∀ i ∈ cs, i.isWellFormedCommand = true ∧ ∀ k, i ≠ .baud k) →
    s.inputs = cs.map Input.command ++ .command (.baud code) :: rest →
    ∃ t, steps (cs.length + 1) s = .next t ∧
      t.chan.tx = [] ∧ t.inputs = rest ∧ t.fr = s.fr ∧
      t.chan.wire = s.chan.wire ++
        (s.chan.tx ++ (cs.map (encode s.params)).flatten ++ [s.params.op.baud, code]).map
          (fun b => (s.chan.rate, b))

/-- R55: the split of a signed 16-bit operand is exact on the whole range, and can be read back. -/
def Obligations.SignedSplitExact : Prop :=
  ∀ v : Int, isS16 v = true →
    (u16 v).toNat = (if 0 ≤ v then v else v + 65536) ∧
    (u16 v).toNat = 256 * (hi8 (u16 v)).toNat + (lo8 (u16 v)).toNat ∧
    s16OfBytes (hi8 (u16 v)) (lo8 (u16 v)) = v

/-! ### Encodings -/

/-- R54: decoding the encoding of a well-formed command gives it back, under opcodes that differ; `MODE op` with the
opcode of an opcode-only command gives that command, whose bytes are the same. (The opcodes are assumed to differ, and
MODE is read last; log 18. The layouts hold the decisions D12 to D14, log 26, and the shapes of general knowledge,
log 2.) -/
def Obligations.DecodeOfEncode : Prop :=
  ∀ (p : Params) (i : Instr), p.unambiguous → i.isWellFormedCommand = true →
    decodeCommand p (encode p i) = .ok (i.canonical p)

/-- R54, the other direction: a byte string that decodes is exactly the encoding of the command it decodes to, so
no other string is accepted. (What the decoder makes of coinciding opcodes is the model's; log 18. The layouts hold
the decisions D12 to D14, log 26, and the shapes of general knowledge, log 2.) -/
def Obligations.EncodeOfDecode : Prop :=
  ∀ (p : Params) (bs : List Byte) (i : Instr), decodeCommand p bs = .ok i →
    i.isWellFormedCommand = true ∧ encode p i = bs

/-- R60: a reader of the transmit stream finds each command's end, whatever follows; for SONG with odd data the
stream holds one byte more than the count announces (R90b, R220). (The opcodes are assumed to differ; log 18. Odd data
is decision D14, log 26; the layouts hold D12 and D13 too, and the shapes of general knowledge, log 2.) -/
def Obligations.StreamReaderFindsCommand : Prop :=
  ∀ (p : Params) (rest : List Byte), p.unambiguous →
    (∀ i : Instr, i.isWellFormedCommand = true → i.lengthReadable p →
      decodeStream p (encode p i ++ rest) = .ok (i, rest)) ∧
    (∀ (k x : Byte) (d : List Byte), d.length % 2 = 0 → d.length < 512 →
      decodeStream p (encode p (.song k (d ++ [x])) ++ rest) = .ok (.song k d, x :: rest))

/-- R59: CE emits no opcode that is not in R54 except through `MODE op`. -/
def Obligations.OnlyModeSendsOtherOpcodes : Prop :=
  ∀ (p : Params) (i : Instr), i.isCommand = true → (∀ op, i ≠ .mode op) →
    ∃ n : OpName, (encode p i).head? = some (p.op.val n)

/-- R51: the checksum rule holds for `FRAME p`, and only for its checksum byte. -/
def Obligations.FrameChecksumUnique : Prop :=
  ∀ (p : List Byte) (c : Byte), p.length ≤ 255 →
    ((19 + p.length + byteSum p + c.toNat) % 256 = 0 ↔ c = frameChecksum p)

/-! ### The surrounding software (context)

The one-turn steps of these calls, and the report port, are the model's (log 19). -/

/-- R151: one turn of `pollOnce` with a byte waiting: FR takes the byte by R126, and the call goes on at `None` and
`Discard`, and returns at `Accept` and `Reject`; with no byte waiting it returns false at once. (That it returns there is
the spec's reading D17; log 19.) -/
def Obligations.PollTurn : Prop :=
  ∀ (s : State) (now : Nat) (rest : List Input), s.inputs = .poll now :: rest →
    ∃ t, step s = .next t ∧
      (s.chan.rx = [] → t.fr = s.fr ∧ t.inputs = rest ∧ t.report = some (.polled none)) ∧
      (∀ b rx, s.chan.rx = b :: rx →
        t.fr = (framerStep s.params.cap s.fr b).1 ∧ t.chan = { s.chan with rx := rx } ∧
        t.event = some (framerStep s.params.cap s.fr b).2 ∧
        match (framerStep s.params.cap s.fr b).2 with
        | .none => t.inputs = .poll now :: rest ∧ t.report = none
        | .discard _ => t.inputs = .poll now :: rest ∧ t.report = none
        | .accept n => t.inputs = rest ∧ t.report = some (.polled (some (n, t.payload n)))
        | .reject => t.inputs = rest ∧ t.report = some (.polled none))

/-- R151, R134: `pollOnce` called in Idle with a well-formed frame at the front of the receive queue returns it,
with its length and the payload cells below CAP, and leaves the later bytes in the channel. (For the lengths 254 and
255 this rests on decision D7, R137; log 25. That `Accept` carries the frame's own length is decision D16; log 26. The
call is outside the block, and where it returns is the spec's reading D17; log 19.) -/
def Obligations.PollReturnsWaitingFrame : Prop :=
  ∀ (s : State) (now : Nat) (p later : List Byte) (rest : List Input),
    p.length ≤ 255 → s.fr.st = .idle → s.chan.rx = frame p ++ later → s.inputs = .poll now :: rest →
    ∃ t, steps (p.length + 3) s = .next t ∧
      t.chan.rx = later ∧ t.inputs = rest ∧ t.fr.st = .idle ∧
      t.report = some (.polled (some (BitVec.ofNat 8 p.length, p.take s.params.cap)))

/-- R152: a byte reaches the line reader exactly when FR discards it: after a `pollOnce` turn whose event is not
`Discard` the line buffer and the log are as before, but for a partly filled line that a policy other than keeping it
flushes or drops at a header; the byte is in neither. (When such a line meets the header is the model's, log 20.) -/
def Obligations.FrameBytesNeverReachLineReader : Prop :=
  ∀ (s t : State) (now : Nat) (rest : List Input), s.inputs = .poll now :: rest → step s = .next t →
    (∀ x, t.event ≠ some (.discard x)) →
    (t.sur.line = s.sur.line ∧ t.sur.lines = s.sur.lines) ∨
    (s.sur.line ≠ [] ∧ s.params.line.atHeader ≠ .keep ∧ t.event = some .none ∧ t.sur.line = [] ∧
      (t.sur.lines = s.sur.lines ∨ t.sur.lines = s.sur.lines ++ [lineText s.params.line s.sur.line false]))

/-- R154: `readExact(n)` with `n` bytes waiting returns exactly those bytes in wire order, and FR never sees them
(R219); with fewer waiting and none to come it returns Timeout, the destination holding those it read. -/
def Obligations.ReadExactReturnsWaitingBytes : Prop :=
  (∀ (s : State) (bs later : List Byte) (rest : List Input),
    s.chan.rx = bs ++ later → s.inputs = .readExact bs.length [] :: rest →
    ∃ t, steps (bs.length + 1) s = .next t ∧
      t.report = some (.bytes bs) ∧ t.chan.rx = later ∧ t.inputs = rest ∧ t.fr = s.fr) ∧
  (∀ (s : State) (n : Nat) (rest : List Input),
    s.chan.rx.length < n → s.sur.arrivals = [] → s.inputs = .readExact n [] :: rest →
    ∃ t, steps (s.chan.rx.length + 1) s = .next t ∧
      t.report = some (.timeout s.chan.rx) ∧ t.chan.rx = [] ∧ t.inputs = rest ∧ t.fr = s.fr)

/-- R154: `readExact(n)` always returns, with exactly `n` bytes or with `Timeout` and fewer, and never waits longer than
`n` times the per-byte timeout. -/
def Obligations.ReadExactBoundedWait : Prop :=
  ∀ (s : State) (n : Nat) (rest : List Input), s.inputs = .readExact n [] :: rest →
    ∃ k t, k ≤ n + 1 ∧ steps k s = .next t ∧ t.inputs = rest ∧ t.fr = s.fr ∧
      ((∃ bs, bs.length = n ∧ t.report = some (.bytes bs)) ∨
        ∃ got, got.length < n ∧ t.report = some (.timeout got)) ∧
      t.sur.waited ≤ s.sur.waited + n * s.params.byteTimeout

/-- R157, R184: a count byte above 100 is a protocol violation, reported with the count 0, and no byte after it is
read; a count of at most 100 starts the second phase. -/
def Obligations.ScriptCountChecked : Prop :=
  ∀ (s : State) (cap : Nat) (c : Byte) (rx : List Byte) (rest : List Input),
    s.inputs = .scriptCount cap :: rest → s.chan.rx = c :: rx →
    ∃ t, step s = .next t ∧ t.chan.rx = rx ∧ t.fr = s.fr ∧
      (100 < c.toNat → t.report = some (.violation 0#8) ∧ t.inputs = rest) ∧
      (c.toNat ≤ 100 → t.report = none ∧ t.inputs = .scriptBody c.toNat cap c [] :: rest)

/-- R157: `getScript` with a count of at most 100 and all its bytes waiting: the request is written, at most `cap`
bytes are copied, all `count` bytes are consumed, and the true count is returned. (That the request is the single byte
OP_SHOW_SCRIPT is general knowledge, G9; log 2. The call is outside the block; log 23.) -/
def Obligations.GetScriptCopiesUpToCapacity : Prop :=
  ∀ (s : State) (cap : Nat) (count : Byte) (bs later : List Byte) (rest : List Input),
    count.toNat ≤ 100 → bs.length = count.toNat → s.chan.rx = count :: (bs ++ later) →
    s.inputs = .getScript cap :: rest →
    ∃ t, steps (bs.length + 4) s = .next t ∧
      t.report = some (.script count (bs.take cap)) ∧ t.chan.rx = later ∧ t.inputs = rest ∧ t.fr = s.fr ∧
      t.chan.tx = s.chan.tx ++ [s.params.op.showScript]

/-- R155, R156: a query sends its command and then reads exactly the expected number of bytes, in order. (QUERY_LIST's
order is named by decision D12 too; log 26. The calls are outside the block; log 23.) -/
def Obligations.QuerySendsThenReads : Prop :=
  ∀ (s : State) (id : Byte) (ids bs later : List Byte) (rest : List Input), s.chan.rx = bs ++ later →
    (lookupByte s.params.sensorLen id = some bs.length → s.inputs = .querySensor id :: rest →
      ∃ t, steps (bs.length + 3) s = .next t ∧
        t.report = some (.bytes bs) ∧ t.chan.rx = later ∧ t.inputs = rest ∧
        t.chan.tx = s.chan.tx ++ [s.params.op.sensors, id]) ∧
    (s.inputs = .queryMulti ids bs.length :: rest →
      ∃ t, steps (bs.length + 3) s = .next t ∧
        t.report = some (.bytes bs) ∧ t.chan.rx = later ∧ t.inputs = rest ∧
        t.chan.tx = s.chan.tx ++ ([s.params.op.queryList, BitVec.ofNat 8 ids.length] ++ ids))

/-- R153: a discarded byte joins the line buffer while that does not fill it; the terminator ends the line, which is
logged without one carriage return before it (with the open points of U9 at "terminator not stored, lone carriage
returns kept"), and the buffer is emptied. -/
def Obligations.LineReaderAssemblesLines : Prop :=
  ∀ (s t : State) (now : Nat) (b : Byte) (rx : List Byte) (rest : List Input),
    s.inputs = .poll now :: rest → s.fr.st = .idle → s.chan.rx = b :: rx → b.toNat ≠ 19 →
    step s = .next t →
    (b.toNat ≠ 10 → s.sur.line.length + 1 < s.params.line.maxLen →
      t.sur.line = s.sur.line ++ [b] ∧ t.sur.lines = s.sur.lines) ∧
    (b.toNat = 10 → s.params.line.keepTerminator = false → s.params.line.stripLoneCr = false →
      t.sur.line = [] ∧
      (∀ l, s.sur.line = l ++ [13#8] → t.sur.lines = s.sur.lines ++ [l]) ∧
      (s.sur.line.getLast? ≠ some 13#8 → t.sur.lines = s.sur.lines ++ [s.sur.line]))

/-- R158, R151: in a `pollOnce` turn that reads a byte the wake line is pulsed exactly when the pulse is due, and the
next one is due 30 s after `now`; a turn that finds no byte pulses nothing (C5). -/
def Obligations.PulseDrivenWhenDue : Prop :=
  ∀ (s t : State) (now : Nat) (rest : List Input), s.inputs = .poll now :: rest → step s = .next t →
    (s.chan.rx ≠ [] → pulseDue s.params.clockBits now s.sur.due = true →
      t.sur.pulses = s.sur.pulses ++ [(now, s.params.pulseWidth)] ∧
      t.sur.due = (now + 30 * s.params.ticksPerSecond) % 2 ^ s.params.clockBits) ∧
    (s.chan.rx = [] ∨ pulseDue s.params.clockBits now s.sur.due = false →
      t.sur.pulses = s.sur.pulses ∧ t.sur.due = s.sur.due)

/-- R33: a byte that arrives joins the end of the receive queue; the channel sends the oldest queued byte at its
present rate; neither touches FR. -/
def Obligations.ChannelMovesBytesInOrder : Prop :=
  ∀ (s : State) (rest : List Input),
    (∀ b, s.inputs = .arrive b :: rest →
      step s = .next { s with
        inputs := rest, event := none, report := none, chan := { s.chan with rx := s.chan.rx ++ [b] } }) ∧
    (∀ b tx, s.inputs = .transmit :: rest → s.chan.tx = b :: tx →
      step s = .next { s with
        inputs := rest, event := none, report := none
        chan := { s.chan with tx := tx, wire := s.chan.wire ++ [(s.chan.rate, b)] } })

/-- R158, R159: the pulse comparison is `now.wrapping_sub(due) >= 0` on the clock's width: with both values on the
clock, it holds exactly when `now - due`, wrapped into the signed range, is not negative. -/
def Obligations.PulseComparisonWrapSafe : Prop :=
  ∀ bits now due : Nat, 0 < bits → now < 2 ^ bits → due < 2 ^ bits →
    (pulseDue bits now due = true ↔ 0 ≤ ((now : Int) - due).bmod (2 ^ bits))

/-- R30: the consumer's read of a cell that exists answers it and changes nothing else; a read of a cell that does
not exist faults (the fault is the model's, log 24). -/
def Obligations.ConsumerReadsCell : Prop :=
  ∀ (s : State) (i : Nat) (rest : List Input), s.inputs = .readCell i :: rest →
    (i < s.params.cap → step s =
      .next { s with inputs := rest, event := none, report := some (.cell (s.cell i)) }) ∧
    (s.params.cap ≤ i → step s = .fault (.noSuchCell i))
end

