-- ==== Sys2Proof/Laws/Operands.lean ====
section
/-!
SUPPORT. The laws of CE's operand computations (41_command_encoder.md rule R102) and of their inverses.
-/

namespace Sys2Proof

theorem isS16_iff (v : Int) : isS16 v = true ↔ -32768 ≤ v ∧ v ≤ 32767 := by simp [isS16]

/-- A word is its two bytes, high byte first. -/
theorem toNat_hi8_lo8 (w : Word16) : w.toNat = 256 * (hi8 w).toNat + (lo8 w).toNat := by
  simp only [hi8, lo8, BitVec.extractLsb'_toNat, Nat.shiftRight_eq_div_pow]
  have := w.isLt
  omega

theorem toNat_append_bytes (a b : Byte) : (a ++ b : BitVec 16).toNat = 256 * a.toNat + b.toNat := by
  rw [BitVec.toNat_append, ← Nat.shiftLeft_add_eq_or_of_lt b.isLt, Nat.shiftLeft_eq]
  omega

@[simp] theorem hi8_append (a b : Byte) : hi8 (a ++ b) = a := by
  rw [← BitVec.toNat_inj]
  simp only [hi8, BitVec.extractLsb'_toNat, Nat.shiftRight_eq_div_pow, toNat_append_bytes]
  have := a.isLt
  have := b.isLt
  omega

@[simp] theorem lo8_append (a b : Byte) : lo8 (a ++ b) = b := by
  rw [← BitVec.toNat_inj]
  simp only [lo8, BitVec.extractLsb'_toNat, toNat_append_bytes]
  have := b.isLt
  omega

/-- `u16` undoes the signed reading of a word. -/
@[simp] theorem u16_toInt (w : Word16) : u16 w.toInt = w := by
  rw [← BitVec.toNat_inj]
  unfold u16
  have := w.isLt
  simp only [BitVec.toInt_eq_toNat_cond]
  split <;> split <;> rw [BitVec.toNat_ofNat] <;> omega

theorem isS16_s16OfBytes (a b : Byte) : isS16 (s16OfBytes a b) = true := by
  have := (a ++ b : BitVec 16).isLt
  simp only [isS16, s16OfBytes, BitVec.toInt_eq_toNat_cond]
  split <;> simp <;> omega

@[simp] theorem s16Bytes_s16OfBytes (a b : Byte) : s16Bytes (s16OfBytes a b) = [a, b] := by
  simp [s16Bytes, s16OfBytes]

/-- Bit `i` of the mask of seven days is day `i`, and bit 7 is 0 (R56b). -/
theorem dayMask_bits : ∀ a b c d e f g : Bool,
    (∀ i, i < 7 → some ((dayMask [a, b, c, d, e, f, g]).getLsbD i) = [a, b, c, d, e, f, g][i]?) ∧
    (dayMask [a, b, c, d, e, f, g]).getLsbD 7 = false := by decide

theorem daysOfMask_dayMask : ∀ a b c d e f g : Bool,
    daysOfMask (dayMask [a, b, c, d, e, f, g]) = [a, b, c, d, e, f, g] := by decide

theorem dayMask_daysOfMask : ∀ m : Byte, m.getLsbD 7 = false → dayMask (daysOfMask m) = m := by decide

theorem timeBytes_length : ∀ hh mm : List Byte, hh.length = mm.length → (timeBytes hh mm).length = 2 * hh.length
  | [], [], _ => rfl
  | _ :: hh, _ :: mm, h => by
    have := timeBytes_length hh mm (by simpa using h)
    simp [timeBytes, this]
    omega
  | [], _ :: _, h => by simp at h
  | _ :: _, [], h => by simp at h

theorem hoursOf_timeBytes : ∀ hh mm : List Byte, hh.length = mm.length → hoursOf (timeBytes hh mm) = hh
  | [], [], _ => rfl
  | _ :: hh, _ :: mm, h => by simp [timeBytes, hoursOf, hoursOf_timeBytes hh mm (by simpa using h)]
  | [], _ :: _, h => by simp at h
  | _ :: _, [], h => by simp at h

theorem minutesOf_timeBytes : ∀ hh mm : List Byte, hh.length = mm.length → minutesOf (timeBytes hh mm) = mm
  | [], [], _ => rfl
  | _ :: hh, _ :: mm, h => by simp [timeBytes, minutesOf, minutesOf_timeBytes hh mm (by simpa using h)]
  | [], _ :: _, h => by simp at h
  | _ :: _, [], h => by simp at h

@[simp] theorem noteCount_toNat (d : List Byte) : (noteCount d).toNat = (d.length / 2) % 256 := by
  simp [noteCount]

@[simp] theorem countByte_toNat (ids : List Byte) : (countByte ids).toNat = ids.length % 256 := by
  simp [countByte]

theorem byteSum_append (p q : List Byte) : byteSum (p ++ q) = byteSum p + byteSum q := by
  induction p with
  | nil => simp [byteSum]
  | cons x p ih => simp [byteSum, ih]; omega

/-- Replacing one byte changes the sum by the difference. -/
theorem byteSum_set (p : List Byte) (i : Nat) (x y : Byte) (h : p[i]? = some y) :
    byteSum (p.set i x) + y.toNat = byteSum p + x.toNat := by
  induction p generalizing i with
  | nil => simp at h
  | cons a p ih =>
    cases i with
    | zero => simp at h; subst h; simp [byteSum]; omega
    | succ i => simp at h; simp [byteSum]; have := ih i h; omega

@[simp] theorem add8_toNat (a b : Byte) : (add8 a b).toNat = (a.toNat + b.toNat) % 256 := by
  simp [add8, BitVec.toNat_add]

theorem add8_eq_zero (a b : Byte) : add8 a b = 0#8 ↔ (a.toNat + b.toNat) % 256 = 0 := by
  rw [← BitVec.toNat_inj]
  simp

end Sys2Proof
end

