-- ==== Sys2Proof/Laws/Decode.lean ====
section
/-!
SUPPORT. The laws of decoding: what the opcode names give, and what a payload that decodes says.
-/

namespace Sys2Proof

theorem OpName.mem_all (n : OpName) : n ∈ OpName.all := by cases n <;> decide

/-- Under different opcodes the byte of a name gives that name. -/
theorem Opcodes.name?_val {o : Opcodes} (h : o.distinct) (n : OpName) : o.name? (o.val n) = some n := by
  unfold Opcodes.name?
  cases hf : OpName.all.find? fun m => decide (o.val m = o.val n) with
  | none =>
    have := List.find?_eq_none.mp hf n n.mem_all
    simp at this
  | some m =>
    have := List.find?_some hf
    rw [h m n (by simpa using this)]

/-- A name found has that byte. -/
theorem Opcodes.val_of_name? {o : Opcodes} {op : Byte} {n : OpName} (h : o.name? op = some n) : o.val n = op := by
  simpa using List.find?_some h

/-- The default opcodes differ (G1). -/
theorem Config.opcodes_distinct : Config.opcodes.distinct := by
  intro a b h
  cases a <;> cases b <;> first | rfl | exact absurd h (by decide)

/-- A payload that decodes is the rest of that command's encoding (R54). -/
theorem decodePayload_some {p : Params} {n : OpName} {bs : List Byte} {i : Instr}
    (h : decodePayload p n bs = some i) :
    i.isCommand = true ∧ i.wellFormed = true ∧ encode p i = p.op.val n :: bs := by
  cases n <;> simp only [decodePayload] at h
  case drive | driveDirect =>
    unfold payloadWords at h
    split at h <;> cases h
    exact ⟨rfl, by simp [Instr.wellFormed, isS16_s16OfBytes], by simp [encode, Opcodes.val]⟩
  case song =>
    unfold payloadSong at h
    split at h <;> try cases h
    split at h <;> cases h
    next e => exact ⟨rfl, rfl, by simp [encode, Opcodes.val, e]⟩
  case stream | queryList =>
    unfold payloadIds at h
    split at h <;> try cases h
    split at h <;> cases h
    next e => exact ⟨rfl, rfl, by simp [encode, Opcodes.val, e]⟩
  case streamCtl =>
    unfold payloadStreamCtl at h
    split at h <;> try cases h
    split at h
    · cases h
      next e => exact ⟨rfl, rfl, by simp [encode, Opcodes.val, e]⟩
    · split at h <;> cases h
      next e => exact ⟨rfl, rfl, by simp [encode, Opcodes.val, e]⟩
  case schedule =>
    unfold payloadSchedule at h
    split at h <;> try cases h
    split at h <;> cases h
    next m times e =>
    obtain ⟨e1, e2⟩ := e
    match times, e1 with
    | [_, _, _, _, _, _, _, _, _, _, _, _, _, _], _ =>
      exact ⟨rfl, rfl, by simp [encode, Opcodes.val, dayMask_daysOfMask m e2, hoursOf, minutesOf, timeBytes]⟩
  all_goals
    first | unfold payload0 at h | unfold payload1 at h | unfold payload3 at h
    split at h <;> cases h
    exact ⟨rfl, rfl, rfl⟩

/-- A byte string that is a named opcode and a payload that decodes is that command. -/
theorem decodeCommand_cons {p : Params} {n : OpName} {bs : List Byte} {i : Instr} (hd : p.op.distinct)
    (h : decodePayload p n bs = some i) : decodeCommand p (p.op.val n :: bs) = .ok i := by
  simp [decodeCommand, Opcodes.name?_val hd, h]

/-- The stream reader on a command whose announced length is its own. -/
theorem decodeStream_append {p : Params} {op : Byte} {bs rest : List Byte} {i : Instr}
    (hl : commandLength p op (bs ++ rest) = bs.length + 1) (hd : decodeCommand p (op :: bs) = .ok i) :
    decodeStream p (op :: bs ++ rest) = .ok (i, rest) := by
  simp only [decodeStream, List.cons_append, hl]
  rw [if_pos (by simp)]
  simp [hd]

end Sys2Proof
end

