-- ==== Sys2Proof/Laws/Memory.lean ====
section
/-!
SUPPORT. The laws of the payload buffer: a read after a write, and that a write keeps the canonical form and the
bounds.
-/

namespace Sys2Proof.Machine

@[simp] theorem Memory.read_nil (k i : Nat) : Memory.read k [] i = Config.freeCell k i := rfl

theorem Memory.read_write (k : Nat) (m : Memory) (i j : Nat) (v : Byte) :
    (m.write i v).read k j = if i = j then v else m.read k j := by
  induction m with
  | nil => simp [Memory.write, Memory.read]
  | cons c rest ih =>
    obtain ⟨a, b⟩ := c
    simp only [Memory.write]
    split
    · simp [Memory.read]
    · split
      · subst_vars
        simp only [Memory.read]
        split <;> rfl
      · simp only [Memory.read, ih]
        by_cases hi : i = j <;> by_cases ha : a = j <;> simp_all

@[simp] theorem Memory.read_write_same (k : Nat) (m : Memory) (i : Nat) (v : Byte) :
    (m.write i v).read k i = v := by simp [Memory.read_write]

theorem Memory.read_write_ne (k : Nat) (m : Memory) {i j : Nat} (h : i ≠ j) (v : Byte) :
    (m.write i v).read k j = m.read k j := by simp [Memory.read_write, h]

/-- Every entry after a write is the written one or an old one. -/
theorem Memory.mem_write {m : Memory} {i : Nat} {v : Byte} {c : Host.Cell} (h : c ∈ m.write i v) :
    c = (i, v) ∨ c ∈ m := by
  induction m with
  | nil => simpa [Memory.write] using h
  | cons d rest ih =>
    obtain ⟨a, b⟩ := d
    simp only [Memory.write] at h
    split at h
    · simpa using h
    · split at h
      · subst_vars
        rcases List.mem_cons.mp h with h | h
        · exact .inl h
        · exact .inr (List.mem_cons_of_mem _ h)
      · rcases List.mem_cons.mp h with h | h
        · exact .inr (by simp [h])
        · exact (ih h).imp_right (List.mem_cons_of_mem _)

theorem Memory.wf_write {m : Memory} (h : m.wf) (i : Nat) (v : Byte) : (m.write i v).wf := by
  induction m with
  | nil => simp [Memory.write, Memory.wf]
  | cons d rest ih =>
    obtain ⟨a, b⟩ := d
    obtain ⟨h1, h2⟩ := List.pairwise_cons.mp h
    simp only [Memory.write]
    split
    · next hlt =>
      refine List.pairwise_cons.mpr ⟨fun c hc => ?_, h⟩
      rcases List.mem_cons.mp hc with rfl | hc
      · exact hlt
      · exact hlt.trans (h1 c hc)
    · split
      · exact List.pairwise_cons.mpr ⟨fun c hc => h1 c hc, h2⟩
      · next hge hne =>
        refine List.pairwise_cons.mpr ⟨fun c hc => ?_, ih h2⟩
        rcases Memory.mem_write hc with rfl | hc
        · show a < i
          omega
        · exact h1 c hc

theorem Memory.read_store (k : Nat) (m : Memory) (cap i j : Nat) (v : Byte) :
    (m.store cap i v).read k j = if i = j ∧ i < cap then v else m.read k j := by
  unfold Memory.store
  split
  · next h => rw [Memory.read_write]; simp [h]
  · next h => simp [h]

theorem Memory.wf_store {m : Memory} (h : m.wf) (cap i : Nat) (v : Byte) : (m.store cap i v).wf := by
  unfold Memory.store
  split
  · exact Memory.wf_write h i v
  · exact h

theorem Memory.bounded_store {m : Memory} {cap : Nat} (h : ∀ c ∈ m, c.1 < cap) (i : Nat) (v : Byte) :
    ∀ c ∈ m.store cap i v, c.1 < cap := by
  unfold Memory.store
  split
  · next hlt =>
    intro c hc
    rcases Memory.mem_write hc with rfl | hc
    · exact hlt
    · exact h c hc
  · exact h

end Sys2Proof.Machine
end

