-- ==== Sys2Proof/Laws/Exec.lean ====
section
/-!
SUPPORT. What the meanings can do: a command writes its encoding or is BAUD; a byte's step, one lemma per parse
position; FEED, one byte at a time.
-/

namespace Sys2Proof.Machine

open Sys2Proof

/-- Everything a command can do. -/
theorem exec_command_cases {i : Instr} (s : State) (h : i.isCommand = true) :
    exec i s = .next (s.chanWrite (encode s.params i)) ∨
    ∃ code, i = .baud code ∧
      exec i s = .next ((s.chanWrite (encode s.params i)).chanDrain.chanReopen (s.params.rateOf code)) := by
  cases i <;> simp only [Instr.isCommand, Bool.false_eq_true] at h
  case baud code => exact .inr ⟨code, rfl, rfl⟩
  all_goals exact .inl rfl

theorem feedByte_idle_header {s : State} (h : s.fr.st = .idle) :
    feedByte header s = .next (State.emit { s with fr := { s.fr with st := .waitCount } } .none) := by
  simp [feedByte, h, decodeFr, exec, execFrHdr]

theorem feedByte_idle_other {s : State} {b : Byte} (h : s.fr.st = .idle) (hb : b ≠ header) :
    feedByte b s = .next (s.emit (.discard b)) := by
  simp only [feedByte, h, decodeFr, if_neg hb, exec, execFrSkip]

theorem feedByte_waitCount {s : State} {b : Byte} (h : s.fr.st = .waitCount) :
    feedByte b s = execFrCount b s := by
  simp [feedByte, h, decodeFr, exec]

theorem feedByte_waitBytes {s : State} {b : Byte} (h : s.fr.st = .waitBytes) :
    feedByte b s = execFrData b s := by
  simp [feedByte, h, decodeFr, exec]

theorem feedByte_waitChecksum {s : State} {b : Byte} (h : s.fr.st = .waitChecksum) :
    feedByte b s = execFrChk b s := by
  simp [feedByte, h, decodeFr, exec]

/-- `FR.CHK` answers one of two states. -/
theorem execFrChk_cases (c : Byte) (s : State) :
    (add8 s.fr.sum c = 0#8 ∧ execFrChk c s =
      .next (State.emit { s with fr := { s.fr with st := .idle, sum := add8 s.fr.sum c } } (.accept s.fr.len))) ∨
    (add8 s.fr.sum c ≠ 0#8 ∧ execFrChk c s = .next (s.takeChecksumMismatch (add8 s.fr.sum c))) := by
  by_cases h : add8 s.fr.sum c = 0#8
  · exact .inl ⟨h, by simp [execFrChk, sumAccepts, h]⟩
  · exact .inr ⟨h, by simp [execFrChk, sumAccepts, h]⟩

/-- The payload bytes consumed so far grow by the byte FR.DATA takes (R16). -/
theorem Framer.consumed_data {cap k : Nat} {f : Framer} {p : List Byte} (b : Byte) (st : ParseState)
    (hp : p.length = f.cnt.toNat ∧ f.sum.toNat = (19 + f.len.toNat + byteSum p) % 256 ∧
      ∀ i, i < min f.cnt.toNat cap → some (f.buf.read k i) = p[i]?)
    (hlt : f.cnt.toNat < f.len.toNat) :
    let g : Framer := { f with
      st := st, cnt := f.cnt + 1#8, sum := add8 f.sum b, buf := f.buf.store cap f.cnt.toNat b }
    (p ++ [b]).length = g.cnt.toNat ∧ g.sum.toNat = (19 + g.len.toNat + byteSum (p ++ [b])) % 256 ∧
      ∀ i, i < min g.cnt.toNat cap → some (g.buf.read k i) = (p ++ [b])[i]? := by
  obtain ⟨c1, c2, c3⟩ := hp
  have hl := f.len.isLt
  have hcn : (f.cnt + 1#8).toNat = f.cnt.toNat + 1 := by
    rw [BitVec.toNat_add]
    simp at *
    omega
  refine ⟨by simp only [hcn]; simp [c1], ?_, ?_⟩
  · simp only [add8_toNat, c2, byteSum_append]
    simp [byteSum]
    omega
  · intro i hi
    simp only [hcn] at hi
    simp only [Memory.read_store]
    by_cases hic : f.cnt.toNat = i
    · subst hic
      rw [if_pos ⟨rfl, by omega⟩, ← c1]
      simp
    · rw [if_neg (by omega), c3 i (by omega), List.getElem?_append_left (by omega)]

@[simp] theorem feed_nil (s : State) : feed [] s = some ([], s) := rfl

theorem feed_cons {b : Byte} {bs : List Byte} {s t : State} {e : Event} (h : feedByte b s = .next t)
    (he : t.event = some e) : feed (b :: bs) s = (feed bs t).map fun r => (e :: r.1, r.2) := by
  simp only [feed, h, he]
  cases feed bs t <;> rfl

end Sys2Proof.Machine
end

