-- ==== Sys2Proof/Laws/PerInstr.lean ====
section
/-!
SUPPORT. Statements for all instructions, one lemma per constructor. EncodedLength: a well-formed instruction's
encoding has the length of R54's column "total bytes" (one byte for a row of R52).
-/

namespace Sys2Proof.Laws.EncodedLength

open Sys2Proof

def Statement (i : Instr) : Prop :=
  ∀ p : Params, i.wellFormed = true → (encode p i).length = i.totalBytes

theorem frHdr : Statement .frHdr := fun _ _ => rfl

theorem frSkip (b : Byte) : Statement (.frSkip b) := fun _ _ => rfl

theorem frCount (n : Byte) : Statement (.frCount n) := fun _ _ => rfl

theorem frData (b : Byte) : Statement (.frData b) := fun _ _ => rfl

theorem frChk (c : Byte) : Statement (.frChk c) := fun _ _ => rfl

theorem start : Statement .start := fun _ _ => rfl

theorem safe : Statement .safe := fun _ _ => rfl

theorem full : Statement .full := fun _ _ => rfl

theorem mode (op : Byte) : Statement (.mode op) := fun _ _ => rfl

theorem drive (v r : Int) : Statement (.drive v r) := fun _ _ => rfl

theorem driveDirect (a b : Int) : Statement (.driveDirect a b) := fun _ _ => rfl

theorem leds (x y z : Byte) : Statement (.leds x y z) := fun _ _ => rfl

theorem drivers (x : Byte) : Statement (.drivers x) := fun _ _ => rfl

theorem pwmDrivers (x y z : Byte) : Statement (.pwmDrivers x y z) := fun _ _ => rfl

theorem song (k : Byte) (d : List Byte) : Statement (.song k d) := by
  intro p _
  simp [encode, Instr.totalBytes]
  omega

theorem playSong (k : Byte) : Statement (.playSong k) := fun _ _ => rfl

theorem streamStart (ids : List Byte) : Statement (.streamStart ids) := by
  intro p _
  simp [encode, Instr.totalBytes]
  omega

theorem streamPause : Statement .streamPause := fun _ _ => rfl

theorem streamResume : Statement .streamResume := fun _ _ => rfl

theorem setClock (day hour minute : Byte) : Statement (.setClock day hour minute) := fun _ _ => rfl

theorem setSchedule (en : List Bool) (hh mm : List Byte) : Statement (.setSchedule en hh mm) := by
  intro p h
  simp only [Instr.wellFormed, Bool.and_eq_true, beq_iff_eq] at h
  obtain ⟨⟨-, h2⟩, h3⟩ := h
  simp [encode, Instr.totalBytes, timeBytes_length hh mm (h2.trans h3.symm), h2]

theorem baud (code : Byte) : Statement (.baud code) := fun _ _ => rfl

theorem query (id : Byte) : Statement (.query id) := fun _ _ => rfl

theorem queryList (ids : List Byte) : Statement (.queryList ids) := by
  intro p _
  simp [encode, Instr.totalBytes]
  omega

theorem getScript : Statement .getScript := fun _ _ => rfl

end Sys2Proof.Laws.EncodedLength
end

