-- ==== Sys2Proof/Laws/State.lean ====
section
/-!
SUPPORT. What each named operation does to each field of State: one small lemma per field, true by rfl.
-/

namespace Sys2Proof.Machine

variable (s : State)

/-! ### chanWrite -/

@[simp] theorem State.chanWrite_fr (bs : List Byte) : (s.chanWrite bs).fr = s.fr := rfl
@[simp] theorem State.chanWrite_event (bs : List Byte) : (s.chanWrite bs).event = s.event := rfl
@[simp] theorem State.chanWrite_inputs (bs : List Byte) : (s.chanWrite bs).inputs = s.inputs := rfl
@[simp] theorem State.chanWrite_cells (bs : List Byte) : (s.chanWrite bs).cells = s.cells := rfl
@[simp] theorem State.chanWrite_fresh (bs : List Byte) : (s.chanWrite bs).fresh = s.fresh := rfl
@[simp] theorem State.chanWrite_sur (bs : List Byte) : (s.chanWrite bs).sur = s.sur := rfl
@[simp] theorem State.chanWrite_report (bs : List Byte) : (s.chanWrite bs).report = s.report := rfl
@[simp] theorem State.chanWrite_params (bs : List Byte) : (s.chanWrite bs).params = s.params := rfl
@[simp] theorem State.chanWrite_tx (bs : List Byte) :
    (s.chanWrite bs).chan.tx = s.chan.tx ++ bs := rfl
@[simp] theorem State.chanWrite_rx (bs : List Byte) :
    (s.chanWrite bs).chan.rx = s.chan.rx := rfl
@[simp] theorem State.chanWrite_rate (bs : List Byte) :
    (s.chanWrite bs).chan.rate = s.chan.rate := rfl
@[simp] theorem State.chanWrite_wire (bs : List Byte) :
    (s.chanWrite bs).chan.wire = s.chan.wire := rfl

/-! ### chanDrain -/

@[simp] theorem State.chanDrain_fr : (s.chanDrain).fr = s.fr := rfl
@[simp] theorem State.chanDrain_event : (s.chanDrain).event = s.event := rfl
@[simp] theorem State.chanDrain_inputs : (s.chanDrain).inputs = s.inputs := rfl
@[simp] theorem State.chanDrain_cells : (s.chanDrain).cells = s.cells := rfl
@[simp] theorem State.chanDrain_fresh : (s.chanDrain).fresh = s.fresh := rfl
@[simp] theorem State.chanDrain_sur : (s.chanDrain).sur = s.sur := rfl
@[simp] theorem State.chanDrain_report : (s.chanDrain).report = s.report := rfl
@[simp] theorem State.chanDrain_params : (s.chanDrain).params = s.params := rfl
@[simp] theorem State.chanDrain_tx :
    (s.chanDrain).chan.tx = [] := rfl
@[simp] theorem State.chanDrain_rx :
    (s.chanDrain).chan.rx = s.chan.rx := rfl
@[simp] theorem State.chanDrain_rate :
    (s.chanDrain).chan.rate = s.chan.rate := rfl
@[simp] theorem State.chanDrain_wire :
    (s.chanDrain).chan.wire = s.chan.wire ++ s.chan.tx.map fun b => (s.chan.rate, b) := rfl

/-! ### chanReopen -/

@[simp] theorem State.chanReopen_fr (r : Nat) : (s.chanReopen r).fr = s.fr := rfl
@[simp] theorem State.chanReopen_event (r : Nat) : (s.chanReopen r).event = s.event := rfl
@[simp] theorem State.chanReopen_inputs (r : Nat) : (s.chanReopen r).inputs = s.inputs := rfl
@[simp] theorem State.chanReopen_cells (r : Nat) : (s.chanReopen r).cells = s.cells := rfl
@[simp] theorem State.chanReopen_sur (r : Nat) : (s.chanReopen r).sur = s.sur := rfl
@[simp] theorem State.chanReopen_report (r : Nat) : (s.chanReopen r).report = s.report := rfl
@[simp] theorem State.chanReopen_params (r : Nat) : (s.chanReopen r).params = s.params := rfl
@[simp] theorem State.chanReopen_tx (r : Nat) :
    (s.chanReopen r).chan.tx = if s.chan.tx = [] then [] else Config.txAfterReopen s.fresh := rfl
@[simp] theorem State.chanReopen_rate (r : Nat) :
    (s.chanReopen r).chan.rate = r := rfl
@[simp] theorem State.chanReopen_wire (r : Nat) :
    (s.chanReopen r).chan.wire = s.chan.wire := rfl
@[simp] theorem State.chanReopen_fresh (r : Nat) : (s.chanReopen r).fresh = s.fresh + 1 := rfl

/-! ### chanArrive -/

@[simp] theorem State.chanArrive_fr (b : Byte) : (s.chanArrive b).fr = s.fr := rfl
@[simp] theorem State.chanArrive_event (b : Byte) : (s.chanArrive b).event = s.event := rfl
@[simp] theorem State.chanArrive_inputs (b : Byte) : (s.chanArrive b).inputs = s.inputs := rfl
@[simp] theorem State.chanArrive_cells (b : Byte) : (s.chanArrive b).cells = s.cells := rfl
@[simp] theorem State.chanArrive_fresh (b : Byte) : (s.chanArrive b).fresh = s.fresh := rfl
@[simp] theorem State.chanArrive_sur (b : Byte) : (s.chanArrive b).sur = s.sur := rfl
@[simp] theorem State.chanArrive_report (b : Byte) : (s.chanArrive b).report = s.report := rfl
@[simp] theorem State.chanArrive_params (b : Byte) : (s.chanArrive b).params = s.params := rfl
@[simp] theorem State.chanArrive_tx (b : Byte) :
    (s.chanArrive b).chan.tx = s.chan.tx := rfl
@[simp] theorem State.chanArrive_rx (b : Byte) :
    (s.chanArrive b).chan.rx = s.chan.rx ++ [b] := rfl
@[simp] theorem State.chanArrive_rate (b : Byte) :
    (s.chanArrive b).chan.rate = s.chan.rate := rfl
@[simp] theorem State.chanArrive_wire (b : Byte) :
    (s.chanArrive b).chan.wire = s.chan.wire := rfl

/-! ### emit -/

@[simp] theorem State.emit_fr (e : Event) : (s.emit e).fr = s.fr := rfl
@[simp] theorem State.emit_chan (e : Event) : (s.emit e).chan = s.chan := rfl
@[simp] theorem State.emit_inputs (e : Event) : (s.emit e).inputs = s.inputs := rfl
@[simp] theorem State.emit_cells (e : Event) : (s.emit e).cells = s.cells := rfl
@[simp] theorem State.emit_fresh (e : Event) : (s.emit e).fresh = s.fresh := rfl
@[simp] theorem State.emit_sur (e : Event) : (s.emit e).sur = s.sur := rfl
@[simp] theorem State.emit_report (e : Event) : (s.emit e).report = s.report := rfl
@[simp] theorem State.emit_params (e : Event) : (s.emit e).params = s.params := rfl
@[simp] theorem State.emit_event (e : Event) : (s.emit e).event = some e := rfl

/-! ### answer -/

@[simp] theorem State.answer_fr (r : Report) : (s.answer r).fr = s.fr := rfl
@[simp] theorem State.answer_event (r : Report) : (s.answer r).event = s.event := rfl
@[simp] theorem State.answer_chan (r : Report) : (s.answer r).chan = s.chan := rfl
@[simp] theorem State.answer_inputs (r : Report) : (s.answer r).inputs = s.inputs := rfl
@[simp] theorem State.answer_cells (r : Report) : (s.answer r).cells = s.cells := rfl
@[simp] theorem State.answer_fresh (r : Report) : (s.answer r).fresh = s.fresh := rfl
@[simp] theorem State.answer_sur (r : Report) : (s.answer r).sur = s.sur := rfl
@[simp] theorem State.answer_params (r : Report) : (s.answer r).params = s.params := rfl
@[simp] theorem State.answer_report (r : Report) : (s.answer r).report = some r := rfl

/-! ### clearPorts -/

@[simp] theorem State.clearPorts_fr : (s.clearPorts).fr = s.fr := rfl
@[simp] theorem State.clearPorts_chan : (s.clearPorts).chan = s.chan := rfl
@[simp] theorem State.clearPorts_inputs : (s.clearPorts).inputs = s.inputs := rfl
@[simp] theorem State.clearPorts_cells : (s.clearPorts).cells = s.cells := rfl
@[simp] theorem State.clearPorts_fresh : (s.clearPorts).fresh = s.fresh := rfl
@[simp] theorem State.clearPorts_sur : (s.clearPorts).sur = s.sur := rfl
@[simp] theorem State.clearPorts_params : (s.clearPorts).params = s.params := rfl
@[simp] theorem State.clearPorts_event : (s.clearPorts).event = none := rfl
@[simp] theorem State.clearPorts_report : (s.clearPorts).report = none := rfl

/-! ### takeChecksumMismatch -/

@[simp] theorem State.takeChecksumMismatch_chan (c : Byte) : (s.takeChecksumMismatch c).chan = s.chan := rfl
@[simp] theorem State.takeChecksumMismatch_inputs (c : Byte) : (s.takeChecksumMismatch c).inputs = s.inputs := rfl
@[simp] theorem State.takeChecksumMismatch_cells (c : Byte) : (s.takeChecksumMismatch c).cells = s.cells := rfl
@[simp] theorem State.takeChecksumMismatch_fresh (c : Byte) : (s.takeChecksumMismatch c).fresh = s.fresh := rfl
@[simp] theorem State.takeChecksumMismatch_sur (c : Byte) : (s.takeChecksumMismatch c).sur = s.sur := rfl
@[simp] theorem State.takeChecksumMismatch_report (c : Byte) : (s.takeChecksumMismatch c).report = s.report := rfl
@[simp] theorem State.takeChecksumMismatch_params (c : Byte) : (s.takeChecksumMismatch c).params = s.params := rfl
@[simp] theorem State.takeChecksumMismatch_event (c : Byte) : (s.takeChecksumMismatch c).event = some .reject := rfl
@[simp] theorem State.takeChecksumMismatch_fr (c : Byte) : (s.takeChecksumMismatch c).fr = { s.fr with st := .idle, sum := c } := rfl

/-! ### resetFramer -/

@[simp] theorem State.resetFramer_event : (s.resetFramer).event = s.event := rfl
@[simp] theorem State.resetFramer_chan : (s.resetFramer).chan = s.chan := rfl
@[simp] theorem State.resetFramer_inputs : (s.resetFramer).inputs = s.inputs := rfl
@[simp] theorem State.resetFramer_cells : (s.resetFramer).cells = s.cells + 1 := rfl
@[simp] theorem State.resetFramer_fresh : (s.resetFramer).fresh = s.fresh := rfl
@[simp] theorem State.resetFramer_sur : (s.resetFramer).sur = s.sur := rfl
@[simp] theorem State.resetFramer_report : (s.resetFramer).report = s.report := rfl
@[simp] theorem State.resetFramer_params : (s.resetFramer).params = s.params := rfl
@[simp] theorem State.resetFramer_fr : (s.resetFramer).fr = Framer.reset := rfl

/-! ### chanTransmit -/

@[simp] theorem State.chanTransmit_fr : s.chanTransmit.fr = s.fr := by
  unfold State.chanTransmit; split <;> rfl
@[simp] theorem State.chanTransmit_event : s.chanTransmit.event = s.event := by
  unfold State.chanTransmit; split <;> rfl
@[simp] theorem State.chanTransmit_inputs : s.chanTransmit.inputs = s.inputs := by
  unfold State.chanTransmit; split <;> rfl
@[simp] theorem State.chanTransmit_cells : s.chanTransmit.cells = s.cells := by
  unfold State.chanTransmit; split <;> rfl
@[simp] theorem State.chanTransmit_fresh : s.chanTransmit.fresh = s.fresh := by
  unfold State.chanTransmit; split <;> rfl
@[simp] theorem State.chanTransmit_sur : s.chanTransmit.sur = s.sur := by
  unfold State.chanTransmit; split <;> rfl
@[simp] theorem State.chanTransmit_report : s.chanTransmit.report = s.report := by
  unfold State.chanTransmit; split <;> rfl
@[simp] theorem State.chanTransmit_params : s.chanTransmit.params = s.params := by
  unfold State.chanTransmit; split <;> rfl
@[simp] theorem State.chanTransmit_rx : s.chanTransmit.chan.rx = s.chan.rx := by
  unfold State.chanTransmit; split <;> rfl
@[simp] theorem State.chanTransmit_rate : s.chanTransmit.chan.rate = s.chan.rate := by
  unfold State.chanTransmit; split <;> rfl

/-- Transmitting moves one byte from the queue to the wire and loses none. -/
theorem State.chanTransmit_bytes :
    s.chanTransmit.chan.wire.map Prod.snd ++ s.chanTransmit.chan.tx = s.chan.wire.map Prod.snd ++ s.chan.tx := by
  unfold State.chanTransmit
  split <;> simp_all

/-- Draining moves every queued byte to the wire, in order, at the present rate. -/
theorem State.chanDrain_bytes :
    s.chanDrain.chan.wire.map Prod.snd ++ s.chanDrain.chan.tx = s.chan.wire.map Prod.snd ++ s.chan.tx := by
  simp [Function.comp_def]

theorem State.chanRead_cons {b : Byte} {rest : List Byte} (h : s.chan.rx = b :: rest) :
    s.chanRead = some (b, { s with chan := { s.chan with rx := rest } }) := by
  simp [State.chanRead, h]

theorem State.chanRead_nil (h : s.chan.rx = []) : s.chanRead = none := by
  simp [State.chanRead, h]

/-- Everything a channel read can do. -/
theorem State.chanRead_cases :
    (s.chan.rx = [] ∧ s.chanRead = none) ∨
    (∃ b rest, s.chan.rx = b :: rest ∧
      s.chanRead = some (b, { s with chan := { s.chan with rx := rest } })) := by
  cases h : s.chan.rx with
  | nil => exact .inl ⟨rfl, s.chanRead_nil h⟩
  | cons b rest => exact .inr ⟨b, rest, rfl, s.chanRead_cons h⟩

end Sys2Proof.Machine
end

