-- ==== Sys2Proof/Laws/Step.lean ====
section
/-!
SUPPORT. The step and finite runs, one equation each.
-/

namespace Sys2Proof.Machine

open Sys2Proof

theorem step_nil {s : State} (h : s.inputs = []) : step s = .next s.clearPorts := by
  simp [step, runNext, h]

theorem step_cons {s : State} {i : Input} {rest : List Input} (h : s.inputs = i :: rest) :
    step s = runInput i { s.clearPorts with inputs := rest } := by
  simp [step, runNext, h]

@[simp] theorem steps_zero (s : State) : steps 0 s = .next s := rfl

theorem steps_succ {s t : State} (n : Nat) (h : step s = .next t) : steps (n + 1) s = steps n t := by
  simp [steps, h]

/-- A run of `a + b` steps is a run of `a` and then one of `b`. -/
theorem steps_add {s t : State} (a b : Nat) (h : steps a s = .next t) : steps (a + b) s = steps b t := by
  induction a generalizing s with
  | zero => cases h; simp
  | succ a ih =>
    cases hs : step s with
    | next u => rw [Nat.add_right_comm, steps_succ _ hs]; rw [steps_succ _ hs] at h; exact ih h
    | fault r => simp [steps, hs] at h
    | refused r => simp [steps, hs] at h

/-- A command that keeps the caller contract of SONG has a length a stream reader finds (R60, R90). -/
theorem lengthReadable_of_contract (p : Params) (k : Byte) (d : List Byte)
    (h : (Instr.song k d).callerContract p) : (Instr.song k d).lengthReadable p := by
  obtain ⟨h1, h2⟩ := h
  exact ⟨h1, by unfold Config.songMaxBytes at h2; omega⟩

end Sys2Proof.Machine
end

