-- ==== Sys2Proof/Laws/Surround.lean ====
section
/-!
SUPPORT. What the surrounding software's operations can do to each field (context, 43_surrounding_units.md).
-/

namespace Sys2Proof.Machine

open Sys2Proof

@[simp] theorem State.queue_inputs (s : State) (is : List Input) : (s.queue is).inputs = is ++ s.inputs := rfl
@[simp] theorem State.queue_fr (s : State) (is : List Input) : (s.queue is).fr = s.fr := rfl
@[simp] theorem State.queue_event (s : State) (is : List Input) : (s.queue is).event = s.event := rfl
@[simp] theorem State.queue_chan (s : State) (is : List Input) : (s.queue is).chan = s.chan := rfl
@[simp] theorem State.queue_fresh (s : State) (is : List Input) : (s.queue is).fresh = s.fresh := rfl
@[simp] theorem State.queue_cells (s : State) (is : List Input) : (s.queue is).cells = s.cells := rfl
@[simp] theorem State.queue_sur (s : State) (is : List Input) : (s.queue is).sur = s.sur := rfl
@[simp] theorem State.queue_report (s : State) (is : List Input) : (s.queue is).report = s.report := rfl
@[simp] theorem State.queue_params (s : State) (is : List Input) : (s.queue is).params = s.params := rfl

/-- The wait for a byte answers a byte or a timeout, leaves FR, its cells, the transmit side, the inputs and the parameters,
and waits at most the per-byte timeout (R154). -/
theorem State.takeByte_spec (s : State) :
    ∃ r t, s.takeByte = (r, t) ∧ t.fr = s.fr ∧ t.cells = s.cells ∧ t.params = s.params ∧ t.inputs = s.inputs ∧
      t.chan.tx = s.chan.tx ∧ t.chan.wire = s.chan.wire ∧ t.chan.rate = s.chan.rate ∧ t.report = s.report ∧
      t.sur.waited ≤ s.sur.waited + s.params.byteTimeout := by
  unfold State.takeByte
  rcases s.chanRead_cases with ⟨-, h⟩ | ⟨b, rest, -, h⟩ <;> rw [h]
  · cases s.sur.arrivals with
    | nil => exact ⟨_, _, rfl, rfl, rfl, rfl, rfl, rfl, rfl, rfl, rfl, by simp⟩
    | cons c r =>
      obtain ⟨d, b⟩ := c
      by_cases hd : d < s.params.byteTimeout
      · simp only [hd, if_true]
        exact ⟨_, _, rfl, rfl, rfl, rfl, rfl, rfl, rfl, rfl, rfl, by simp; omega⟩
      · simp only [hd, if_false]
        exact ⟨_, _, rfl, rfl, rfl, rfl, rfl, rfl, rfl, rfl, rfl, by simp⟩
  · exact ⟨_, _, rfl, rfl, rfl, rfl, rfl, rfl, rfl, rfl, rfl, by simp⟩

/-- With a byte waiting, that byte is taken at once. -/
theorem State.takeByte_cons {s : State} {b : Byte} {rest : List Byte} (h : s.chan.rx = b :: rest) :
    s.takeByte = (some b, { s with chan := { s.chan with rx := rest } }) := by
  simp [State.takeByte, s.chanRead_cons h]

/-- The line reader touches nothing but its own state. -/
theorem State.lineReader_frame (s : State) (x : Byte) :
    ∃ line lines, s.lineReader x = { s with sur := { s.sur with line := line, lines := lines } } := by
  unfold State.lineReader State.finishLine
  split
  · exact ⟨_, _, rfl⟩
  · split <;> dsimp only <;> split <;> exact ⟨_, _, rfl⟩

theorem State.lineAtHeader_frame (s : State) :
    ∃ line lines, s.lineAtHeader = { s with sur := { s.sur with line := line, lines := lines } } := by
  unfold State.lineAtHeader State.finishLine
  split
  · exact ⟨_, _, rfl⟩
  · split <;> exact ⟨_, _, rfl⟩

/-- What a partly filled line can become at a header (R152): it stays, or a policy other than keeping it empties it,
logging its text or not. -/
theorem State.lineAtHeader_cases (s : State) :
    (s.lineAtHeader.sur.line = s.sur.line ∧ s.lineAtHeader.sur.lines = s.sur.lines) ∨
    (s.sur.line ≠ [] ∧ s.params.line.atHeader ≠ .keep ∧ s.lineAtHeader.sur.line = [] ∧
      (s.lineAtHeader.sur.lines = s.sur.lines ∨
        s.lineAtHeader.sur.lines = s.sur.lines ++ [lineText s.params.line s.sur.line false])) := by
  unfold State.lineAtHeader State.finishLine
  split
  · exact .inl ⟨rfl, rfl⟩
  · split <;> simp_all

/-- The liveness check touches nothing but the pulse record and the due time. -/
theorem State.liveness_frame (s : State) (now : Nat) :
    ∃ pulses due, s.liveness now = { s with sur := { s.sur with pulses := pulses, due := due } } := by
  unfold State.liveness
  split <;> exact ⟨_, _, rfl⟩

theorem runPoll_nil {now : Nat} {s : State} (h : s.chan.rx = []) :
    runPoll now s = .next (s.answer (.polled none)) := by
  simp [runPoll, s.chanRead_nil h]

end Sys2Proof.Machine
end

