-- ==== Sys2Proof/Tests/Slice0.lean ====
section
/-!
SUPPORT. The model's own tests: the checks of WellFormed, words written out from the spec's encodings, one step on
a small state for each instruction (expected values: the vectors V-F, V-C and V-X of 95_test_vectors.md), and for
each statement with hypotheses a named theorem that some state and operands meet them.
-/

namespace Sys2Proof.Tests

open Sys2Proof Sys2Proof.Machine

/-! ### Helpers -/

/-- Parameters with every open one at a small number; the opcodes and rates are the default columns. -/
def params (cap : Nat) : Params :=
  { Config.params with
    cap := cap
    sensorLen := [(7, 1)]
    byteTimeout := 10
    line := ⟨4, false, .flush, false, false, false⟩
    pulseWidth := 3
    ticksPerSecond := 100
    clockBits := 16 }

/-- FR's registers, with cells. -/
def fr (st : ParseState) (len cnt sum : Byte) (buf : Memory := []) : Framer := ⟨st, len, cnt, sum, buf⟩

/-- A state with FR, received bytes and inputs, CAP = 8, at 9600 bits per second, no pulse due before tick 100. -/
def mk (f : Framer) (rx : List Byte := []) (inputs : List Input := []) (cap : Nat := 8) : State :=
  { State.reset with
    fr := f
    chan := { rx := rx, tx := [], rate := 9600, wire := [] }
    inputs := inputs
    sur := { State.reset.sur with due := 100 }
    params := params cap }

/-- FR in Idle with the registers at 0. -/
def idle : Framer := fr .idle 0 0 0

/-- FR in Idle, a line begun, received bytes and one call of `pollOnce`. -/
def withLine (line rx : List Byte) : State :=
  { mk idle rx [.poll 0] with sur := { (mk idle).sur with line := line } }

/-- The state reached, if one is. -/
def next? : Host.Outcome State Fault Refusal → Option State
  | .next t => some t
  | .fault _ => none
  | .refused _ => none

/-- FR and the event after one `feed` of a byte. -/
def fed (f : Framer) (b : Byte) (cap : Nat := 8) : Option (Framer × Option Event) :=
  (next? (step (mk f [b] [.feed] cap))).map fun t => (t.fr, t.event)

/-- What a command leaves on the transmit side. -/
def sent (i : Instr) : Option (List Byte) :=
  (next? (step (mk idle [] [.command i]))).map fun t => t.chan.tx

/-- The events of a fed byte sequence from Idle. -/
def events (bs : List Byte) (cap : Nat := 8) : Option (List Event) :=
  (feed bs (mk idle [] [] cap)).map Prod.fst

/-! ### WellFormed: one ill-formed term for each check -/

theorem test_wf_skip_header : (Instr.frSkip 19).wellFormed = false := by decide
theorem test_wf_drive_velocity : (Instr.drive 32768 0).wellFormed = false := by decide
theorem test_wf_drive_radius : (Instr.drive 0 (-32769)).wellFormed = false := by decide
theorem test_wf_drive_direct_first : (Instr.driveDirect (-32769) 0).wellFormed = false := by decide
theorem test_wf_drive_direct_second : (Instr.driveDirect 0 32768).wellFormed = false := by decide
theorem test_wf_schedule_days :
    (Instr.setSchedule (.replicate 6 true) (.replicate 7 0) (.replicate 7 0)).wellFormed = false := by decide
theorem test_wf_schedule_hours :
    (Instr.setSchedule (.replicate 7 true) (.replicate 8 0) (.replicate 7 0)).wellFormed = false := by decide
theorem test_wf_schedule_minutes :
    (Instr.setSchedule (.replicate 7 true) (.replicate 7 0) []).wellFormed = false := by decide
theorem test_wf_command_is_no_byte : (Instr.frData 1).isWellFormedCommand = false := by decide

/-! ### Decoding: words written out from R52, R54 and the default column of R57 -/

/-- R52, row by row. -/
theorem test_decode_framer :
    decodeFr .idle 0b00010011 = .frHdr ∧ decodeFr .idle 0b00010010 = .frSkip 18 ∧
    decodeFr .waitCount 0b00010011 = .frCount 19 ∧ decodeFr .waitBytes 0b00010011 = .frData 19 ∧
    decodeFr .waitChecksum 0b10101110 = .frChk 174 := by decide

/-- Rows START, SAFE, FULL, MODE (V-C1 to V-C4). -/
theorem test_decode_modes :
    decodeTableWord 8 0b10000000 = some .start ∧ decodeTableWord 8 0b10000011 = some .safe ∧
    decodeTableWord 8 0b10000100 = some .full ∧
    decodeCommand Config.params [0b10001111] = .ok (.mode 143) := by decide

/-- Rows DRIVE, DRIVE_DIRECT (V-C5d, V-C6a). -/
theorem test_decode_motion :
    decodeTableWord 40 0x8901F48000 = some (.drive 500 (-32768)) ∧
    decodeTableWord 40 0x91012CFED4 = some (.driveDirect 300 (-300)) := by decide

/-- Rows LEDS, DRIVERS, PWM_DRIVERS (V-C7, V-C8). -/
theorem test_decode_accessories :
    decodeTableWord 32 0x8B040080 = some (.leds 4 0 128) ∧ decodeTableWord 16 0x8A05 = some (.drivers 5) ∧
    decodeTableWord 32 0x90004080 = some (.pwmDrivers 0 64 128) := by decide

/-- Rows SONG, PLAY_SONG (V-C10, V-C11, V-C14). -/
theorem test_decode_songs :
    decodeCommand Config.params [140, 1, 1, 60, 32, 62] = .ok (.song 1 [60, 32, 62]) ∧
    decodeTableWord 24 0x8C0200 = some (.song 2 []) ∧ decodeTableWord 16 0x8D00 = some (.playSong 0) := by decide

/-- Rows STREAM_START, STREAM_PAUSE, STREAM_RESUME (V-C15). -/
theorem test_decode_stream :
    decodeTableWord 16 0x9400 = some (.streamStart []) ∧ decodeTableWord 16 0x9600 = some .streamPause ∧
    decodeTableWord 16 0x9601 = some .streamResume := by decide

/-- Rows SET_CLOCK, SET_SCHEDULE (V-C16b, V-C17d). -/
theorem test_decode_clock_schedule :
    decodeTableWord 32 0xA806173B = some (.setClock 6 23 59) ∧
    decodeTableWord 128 0xA7410A00013B023A0339043805370B2D = some (.setSchedule
      [true, false, false, false, false, false, true] [10, 1, 2, 3, 4, 5, 11] [0, 59, 58, 57, 56, 55, 45]) := by
  decide

/-- Rows BAUD, QUERY, QUERY_LIST, GET_SCRIPT (V-C18 to V-C22). -/
theorem test_decode_requests :
    decodeTableWord 16 0x8100 = some (.baud 0) ∧ decodeTableWord 16 0x8E07 = some (.query 7) ∧
    decodeTableWord 40 0x9503070815 = some (.queryList [7, 8, 21]) ∧
    decodeTableWord 8 0x9A = some .getScript := by decide

/-- The row DRIVERS with its opcode in bits 7..0 of a word of two bytes, and of one. -/
theorem test_decode_low_byte_first :
    decodeTableWord 16 0x008A = some (.drivers 0) ∧ decodeTableWord 8 0x8A = some (.drivers 0) := by decide

/-- A known opcode with a wrong payload, an unknown opcode with a payload, an empty string: each by its name. -/
theorem test_decode_rejects :
    decodeCommand Config.params [137, 0, 0] = .error (.wrongPayload 137) ∧
    decodeCommand Config.params [143, 1] = .error (.unknownOpcode 143) ∧
    decodeCommand Config.params [] = .error .empty ∧
    decodeStream Config.params [148, 2, 7] = .error (.truncated 148) := by decide

/-- The split of R55, from the table of 95_test_vectors.md. -/
theorem test_signed_split :
    s16Bytes 256 = [1, 0] ∧ s16Bytes (-1) = [255, 255] ∧ s16Bytes (-256) = [255, 0] ∧
    s16Bytes (-32768) = [128, 0] ∧ s16Bytes 32767 = [127, 255] := by decide

/-! ### FR, one step (vectors V-F) -/

/-- V-F2. -/
theorem test_fr_hdr : fed (fr .idle 3 3 0) 19 = some (fr .waitCount 3 3 0, some .none) := by decide
/-- V-F5. -/
theorem test_fr_skip : fed idle 20 = some (idle, some (.discard 20)) := by decide
/-- V-F6. -/
theorem test_fr_skip_stale : fed (fr .idle 7 7 1) 255 = some (fr .idle 7 7 1, some (.discard 255)) := by decide
/-- V-F8. -/
theorem test_fr_count_zero :
    fed (fr .waitCount 9 9 77) 0 = some (fr .waitChecksum 0 0 19, some .none) := by decide
/-- V-F10. -/
theorem test_fr_count_wraps :
    fed (fr .waitCount 0 0 0) 255 = some (fr .waitBytes 255 0 18, some .none) := by decide
/-- V-F16. -/
theorem test_fr_data_last_wraps :
    fed (fr .waitBytes 2 1 221) 200 = some (fr .waitChecksum 2 2 165 [(1, 200)], some .none) := by decide
/-- V-F15, CAP = 2. -/
theorem test_fr_data_truncated :
    fed (fr .waitBytes 3 2 52 [(0, 10), (1, 20)]) 30 2 =
      some (fr .waitChecksum 3 3 82 [(0, 10), (1, 20)], some .none) := by decide
/-- V-F23. -/
theorem test_fr_chk_good : fed (fr .waitChecksum 1 1 237) 19 = some (fr .idle 1 1 0, some (.accept 1)) := by decide
/-- V-F19. -/
theorem test_fr_chk_bad : fed (fr .waitChecksum 3 3 82) 175 = some (fr .idle 3 3 1, some .reject) := by decide

/-- V1 and V5: the document's frame, and the header value as data. -/
theorem test_frames :
    events [19, 3, 10, 20, 30, 174] = some (.replicate 5 .none ++ [.accept 3]) ∧
    events [19, 2, 19, 19, 197] = some (.replicate 4 .none ++ [.accept 2]) ∧
    frame [10, 20, 30] = [19, 3, 10, 20, 30, 174] ∧ frame [236] = [19, 1, 236, 0] := by decide

/-- V11: a rejected frame's last byte 19 is not a header. -/
theorem test_reject_no_rescan :
    events [19, 1, 216, 19, 19, 1, 5, 231] =
      some (.replicate 3 .none ++ [.reject] ++ .replicate 3 .none ++ [.accept 1]) := by decide

/-! ### CE, one step (vectors V-C) -/

theorem test_start : sent .start = some [128] := by decide
theorem test_safe : sent .safe = some [131] := by decide
theorem test_full : sent .full = some [132] := by decide
theorem test_mode : sent (.mode 143) = some [143] := by decide
/-- V-C5a. -/
theorem test_drive : sent (.drive (-200) 500) = some [137, 255, 56, 1, 244] := by decide
/-- V-C6b. -/
theorem test_drive_direct : sent (.driveDirect (-500) 500) = some [145, 254, 12, 1, 244] := by decide
theorem test_leds : sent (.leds 4 0 128) = some [139, 4, 0, 128] := by decide
theorem test_drivers : sent (.drivers 5) = some [138, 5] := by decide
theorem test_pwm_drivers : sent (.pwmDrivers 0 64 128) = some [144, 0, 64, 128] := by decide
/-- V-C9. -/
theorem test_song : sent (.song 0 [60, 32, 62, 32]) = some [140, 0, 2, 60, 32, 62, 32] := by decide
/-- V-C10: an odd length. -/
theorem test_song_odd : sent (.song 1 [60, 32, 62]) = some [140, 1, 1, 60, 32, 62] := by decide
theorem test_play_song : sent (.playSong 0) = some [141, 0] := by decide
theorem test_stream_start : sent (.streamStart [7, 25]) = some [148, 2, 7, 25] := by decide
theorem test_stream_pause : sent .streamPause = some [150, 0] := by decide
theorem test_stream_resume : sent .streamResume = some [150, 1] := by decide
theorem test_set_clock : sent (.setClock 3 14 5) = some [168, 3, 14, 5] := by decide
/-- V-C17d: the times of disabled days are sent as given. -/
theorem test_set_schedule :
    sent (.setSchedule [true, false, false, false, false, false, true]
      [10, 1, 2, 3, 4, 5, 11] [0, 59, 58, 57, 56, 55, 45]) =
      some [167, 65, 10, 0, 1, 59, 2, 58, 3, 57, 4, 56, 5, 55, 11, 45] := by decide
theorem test_query : sent (.query 7) = some [142, 7] := by decide
theorem test_query_list : sent (.queryList [7, 8, 21]) = some [149, 3, 7, 8, 21] := by decide
theorem test_get_script : sent .getScript = some [154] := by decide
/-- V-C21 with a byte queued before it: all leave at the old rate, then the rate is 115200. -/
theorem test_baud :
    (next? (exec (.baud 11) ((mk idle).chanWrite [128]))).map (fun t => (t.chan.tx, t.chan.wire, t.chan.rate)) =
      some ([], [(9600, 128), (9600, 129), (9600, 11)], 115200) := by decide

/-- Table words placed where the step takes its next instruction, after reset (log 16). -/
theorem test_with_fetch_word :
    (next? (step (State.reset.withFetchWord 40 0x8901F48000))).map (fun t => t.chan.tx) =
      some [137, 1, 244, 128, 0] ∧
    (next? (step (State.reset.withFetchWord 8 0x13))).map (fun t => t.fr.st) = some .waitCount := by decide

/-! ### The surrounding software, one step (vectors V-X) -/

/-- V-X1, V-X4: counts 150 and 101. -/
theorem test_script_violation :
    (next? (step (mk idle [150, 1, 2] [.scriptCount 10]))).map (fun t => (t.report, t.chan.rx)) =
      some (some (.violation 0), [1, 2]) ∧
    (next? (step (mk idle [101] [.scriptCount 10]))).map (fun t => t.report) = some (some (.violation 0)) := by
  decide
/-- V-X3 and V-X6: the loops of no turns. -/
theorem test_empty_reads :
    (next? (step (mk idle [] [.scriptBody 0 10 0 []]))).map (fun t => t.report) = some (some (.script 0 [])) ∧
    (next? (step (mk idle [] [.readExact 0 []]))).map (fun t => t.report) = some (some (.bytes [])) := by decide
/-- V-X5, last turn: nothing arrives. -/
theorem test_read_timeout :
    (next? (step (mk idle [] [.readExact 1 [4, 5]]))).map (fun t => (t.report, t.sur.waited)) =
      some (some (.timeout [4, 5]), 10) := by decide
/-- R157: a Timeout in the script keeps what was copied. -/
theorem test_script_timeout :
    (next? (step (mk idle [] [.scriptBody 2 10 3 [7]]))).map (fun t => t.report) = some (some (.timeout [7])) := by
  decide

/-- A cell not stored in since reset answers its free value (U2), another one after the next reset. -/
theorem test_cell_not_stored :
    (next? (step (mk idle [] [.readCell 3]))).map (fun t => t.report) = some (some (.cell (Config.freeCell 0 3))) ∧
    (mk idle).resetFramer.cell 3 = Config.freeCell 1 3 := ⟨rfl, rfl⟩

/-! ### Every statement's hypotheses are met somewhere, each clause at a boundary of its range -/

/-- FrSkipDiscards: the values beside the header. -/
theorem witness_FrSkipDiscards : (18#8).toNat ≠ 19 ∧ (20#8).toNat ≠ 19 := by decide

/-- FrDataTakesPayloadByte: the last byte below CAP, the first one at CAP, and a last payload byte. -/
theorem witness_FrDataTakesPayloadByte :
    (∃ s : State, s.fr.st = .waitBytes ∧ s.fr.cnt.toNat < s.fr.len.toNat ∧ s.fr.cnt.toNat + 1 = s.params.cap) ∧
    (∃ s : State, s.fr.st = .waitBytes ∧ s.fr.cnt.toNat < s.fr.len.toNat ∧ s.fr.cnt.toNat = s.params.cap) ∧
    (∃ s : State, s.fr.st = .waitBytes ∧ s.fr.cnt.toNat < s.fr.len.toNat ∧ s.fr.cnt.toNat + 1 = s.fr.len.toNat) :=
  ⟨⟨mk (fr .waitBytes 9 7 0), by decide⟩, ⟨mk (fr .waitBytes 9 8 0), by decide⟩,
    ⟨mk (fr .waitBytes 255 254 0), by decide⟩⟩

/-- FramerBufferFrame: a store at the last cell, a payload byte beyond it, and an instruction that stores nothing. -/
theorem witness_FramerBufferFrame :
    (∃ s t : State, exec (.frData 1) s = .next t ∧ s.fr.cnt.toNat + 1 = s.params.cap) ∧
    (∃ s t : State, exec (.frData 1) s = .next t ∧ s.params.cap ≤ s.fr.cnt.toNat) ∧
    (∃ s t : State, exec (.frChk 1) s = .next t ∧ Instr.isCommand (.frChk 1) = false) :=
  ⟨⟨mk (fr .waitBytes 9 7 0), _, rfl, by decide⟩, ⟨mk (fr .waitBytes 9 8 0), _, rfl, by decide⟩,
    ⟨mk (fr .waitChecksum 1 1 0), _, rfl, rfl⟩⟩

/-- StepRunsDecodedInstruction: both clauses. -/
theorem witness_StepRunsDecodedInstruction :
    (∃ s : State, s.inputs = .feed :: [] ∧ s.chan.rx = 19#8 :: []) ∧
    (∃ s : State, s.inputs = .command .start :: [] ∧ Instr.isWellFormedCommand .start = true) :=
  ⟨⟨mk idle [19] [.feed], rfl, rfl⟩, ⟨mk idle [] [.command .start], rfl, rfl⟩⟩

/-- PlacedInstructionRunsNext: both clauses. -/
theorem witness_PlacedInstructionRunsNext :
    (Instr.wellFormed .start = true ∧ Instr.isCommand .start = true) ∧
    (Instr.wellFormed (.frData 3) = true ∧ Instr.selectedIn (.frData 3) = some .waitBytes) := by decide

/-- StepStopsOnlyThere: each stop happens, the first at the first cell that does not exist. -/
theorem witness_StepStopsOnlyThere :
    step (mk idle [] [.readCell 8]) = .fault (.noSuchCell 8) ∧
    step (mk idle [] [.feed]) = .refused .chanReadEmpty ∧
    step (mk idle [] [.command (.drive 32768 0)]) = .refused .notACommand := ⟨rfl, rfl, rfl⟩

/-- StepKeepsParameters, StepKeepsInvariant: a step from a state in the middle of a frame, which has the invariant. -/
theorem witness_StepKeepsInvariant :
    ∃ s t : State, s.inv ∧ step s = .next t ∧ s.fr.st = .waitBytes :=
  ⟨mk (fr .waitBytes 3 1 32 [(0, 10)]) [20] [.feed], _, by
    refine ⟨by decide, by decide, by decide, by decide, fun _ => ⟨[10], by decide, by decide, fun i hi => ?_⟩⟩
    have h : i = 0 := by
      have : i < min 1 8 := hi
      omega
    subst h; rfl, rfl, rfl⟩

/-- FramerChangesOnlyByByteOrReset: FR changes at a fed byte, at a polled byte, and at reset. -/
theorem witness_FramerChangesOnlyByByteOrReset :
    (∃ s t : State, step s = .next t ∧ t.fr ≠ s.fr ∧ s.inputs = [.feed]) ∧
    (∃ s t : State, step s = .next t ∧ t.fr ≠ s.fr ∧ s.inputs = [.poll 0]) ∧
    (∃ s t : State, step s = .next t ∧ t.fr ≠ s.fr ∧ s.inputs = [.reset]) :=
  ⟨⟨mk idle [19] [.feed], _, rfl, by decide, rfl⟩, ⟨mk idle [19] [.poll 0], _, rfl, by decide, rfl⟩,
    ⟨mk (fr .waitCount 0 0 0) [] [.reset], _, rfl, by decide, rfl⟩⟩

/-- ResetRestartsFramerOnly. -/
theorem witness_ResetRestartsFramerOnly : ∃ s : State, s.inputs = .reset :: [] ∧ s.fr.st = .waitBytes :=
  ⟨mk (fr .waitBytes 3 1 32 [(0, 10)]) [] [.reset], rfl, rfl⟩

theorem byteSum_zeros (n : Nat) : byteSum (.replicate n 0) = 0 := by
  induction n with
  | zero => rfl
  | succ n ih => simpa [List.replicate_succ, byteSum] using ih

/-- WellFormedFrameAccepted, SingleByteCorruptionRejected: the longest payload, a changed last byte of it, a changed
checksum. -/
theorem witness_WellFormedFrameAccepted :
    ∃ (p : List Byte) (s : State), p.length = 255 ∧ s.fr.st = .idle ∧ 254 < p.length ∧ p[254]? ≠ some 1#8 ∧
      0#8 ≠ frameChecksum p :=
  have h : (List.replicate 255 (0#8)).length = 255 := List.length_replicate
  ⟨.replicate 255 0, mk idle, h, rfl, by rw [List.length_replicate]; decide, by rw [List.getElem?_replicate]; decide, by
    rw [frameChecksum, byteSum_zeros, List.length_replicate]; decide⟩

/-- NoiseLeavesFramerIdle. -/
theorem witness_NoiseLeavesFramerIdle :
    ∃ (noise : List Byte) (s : State), s.fr.st = .idle ∧ (∀ b ∈ noise, b.toNat ≠ 19) ∧ noise.length = 5 :=
  ⟨[0, 1, 18, 20, 255], mk idle, rfl, by decide, rfl⟩

/-- AcceptMeansFrame: V5. -/
theorem witness_AcceptMeansFrame :
    ∃ s t : State, s.fr.st = .idle ∧
      feed [19, 2, 19, 19, 197] s = some (.replicate 4 .none ++ [.accept 2], t) :=
  ⟨mk idle, _, rfl, rfl⟩

/-- OpenFrameTakesItsBytes: the shortest frame. -/
theorem witness_OpenFrameTakesItsBytes :
    ∃ (s : State) (n : Byte) (body : List Byte), s.fr.st = .waitCount ∧ body.length = n.toNat + 1 :=
  ⟨mk (fr .waitCount 0 0 0), 0, [237], rfl, rfl⟩

/-- EventsIndependentOfBuffer: two states that differ in CAP and in the buffer. -/
theorem witness_EventsIndependentOfBuffer :
    ∃ s s' : State, s'.fr.st = s.fr.st ∧ s'.fr.len = s.fr.len ∧ s'.fr.cnt = s.fr.cnt ∧ s'.fr.sum = s.fr.sum ∧
      s'.params.cap ≠ s.params.cap ∧ s'.fr.buf ≠ s.fr.buf ∧
      (feed [30, 174] s).isSome = true ∧ (feed [30, 174] s').isSome = true :=
  ⟨mk (fr .waitBytes 3 2 52), mk (fr .waitBytes 3 2 52 [(0, 10)]) [] [] 2, by decide⟩

/-- FeedInputsTakeQueueInOrder. -/
theorem witness_FeedInputsTakeQueueInOrder :
    ∃ s : State, s.chan.rx = [19, 0] ++ [237] ∧ s.inputs = List.replicate 2 Input.feed ++ [] :=
  ⟨mk idle [19, 0, 237] [.feed, .feed], rfl, rfl⟩

/-- MotionCommandsWrite, SignedSplitExact: the ends of the range and the values beside the sign change. -/
theorem witness_MotionCommandsWrite :
    isS16 32767 = true ∧ isS16 (-32768) = true ∧ isS16 0 = true ∧ isS16 (-1) = true := by decide

/-- ScheduleCommandWrites. -/
theorem witness_ScheduleCommandWrites :
    (List.replicate 7 true).length = 7 ∧ (List.replicate 7 (23#8)).length = 7 := by decide

/-- BaudDrainsThenReopens: the ends of the table. -/
theorem witness_BaudDrainsThenReopens :
    lookupByte (params 8).rate 0 = some 300 ∧ lookupByte (params 8).rate 11 = some 115200 := by decide

/-- EveryCommandWritesItsEncoding, OnlyModeSendsOtherOpcodes: a command that is neither BAUD nor MODE. -/
theorem witness_EveryCommandWritesItsEncoding :
    Instr.isWellFormedCommand (.drive (-1) 1) = true ∧ (∀ code, Instr.drive (-1) 1 ≠ .baud code) ∧
      ∀ op, Instr.drive (-1) 1 ≠ .mode op := ⟨by decide, by simp, by simp⟩

/-- UnitsDoNotTouchEachOther: a command, BAUD, and a byte of FR. -/
theorem witness_UnitsDoNotTouchEachOther :
    (∃ s t : State, exec .start s = .next t ∧ Instr.isCommand .start = true ∧ ∀ code, Instr.start ≠ .baud code) ∧
    (∃ s t : State, exec (.baud 11) s = .next t ∧ Instr.isCommand (.baud 11) = true) ∧
    (∃ s t : State, exec .frHdr s = .next t ∧ Instr.isCommand .frHdr = false) :=
  ⟨⟨mk idle, _, rfl, rfl, by simp⟩, ⟨mk idle, _, rfl, rfl⟩, ⟨mk idle, _, rfl, rfl⟩⟩

/-- OnlyBaudChangesRate: both cases change the rate. -/
theorem witness_OnlyBaudChangesRate :
    (∃ s t : State, step s = .next t ∧ t.chan.rate ≠ s.chan.rate ∧ s.inputs = [.command (.baud 11)]) ∧
    (∃ s t : State, step s = .next t ∧ t.chan.rate ≠ s.chan.rate ∧ s.inputs = [.openChannel 300]) :=
  ⟨⟨mk idle [] [.command (.baud 11)], _, rfl, by decide, rfl⟩,
    ⟨mk idle [] [.openChannel 300], _, rfl, by decide, rfl⟩⟩

/-- TransmitSideKeepsEveryByte: a command, and the channel opened with nothing queued. -/
theorem witness_TransmitSideKeepsEveryByte :
    (∃ s t : State, step s = .next t ∧ s.inputs = [.command .start] ∧
      ∀ r rest, s.inputs = .openChannel r :: rest → s.chan.tx = []) ∧
    (∃ s t : State, step s = .next t ∧ s.inputs = [.openChannel 300] ∧
      ∀ r rest, s.inputs = .openChannel r :: rest → s.chan.tx = []) :=
  ⟨⟨mk idle [] [.command .start], _, rfl, rfl, fun _ _ _ => rfl⟩,
    ⟨mk idle [] [.openChannel 300], _, rfl, rfl, fun _ _ _ => rfl⟩⟩

/-- CommandsThenBaudAllSentAtOldRate. -/
theorem witness_CommandsThenBaudAllSentAtOldRate :
    ∃ (cs : List Instr) (s : State), (∀ i ∈ cs, i.isWellFormedCommand = true ∧ ∀ k, i ≠ .baud k) ∧
      s.inputs = cs.map Input.command ++ .command (.baud 11) :: [] ∧ cs.length = 2 :=
  ⟨[.start, .safe], mk idle [] [.command .start, .command .safe, .command (.baud 11)], by simp; decide, rfl, rfl⟩

/-- DecodeOfEncode, StreamReaderFindsCommand: the default parameters are unambiguous, and each length condition
is met at its boundary. -/
theorem witness_DecodeOfEncode :
    Config.params.unambiguous ∧ Instr.isWellFormedCommand (.mode 19) = true ∧
    Instr.lengthReadable Config.params (.mode 19) ∧
    Instr.lengthReadable Config.params (.song 0 (.replicate 510 0)) ∧
    Instr.lengthReadable Config.params (.streamStart (.replicate 255 0)) ∧
    Instr.lengthReadable Config.params (.queryList []) ∧
    (List.replicate 510 (0#8)).length % 2 = 0 ∧ (List.replicate 510 (0#8)).length < 512 :=
  ⟨⟨Config.opcodes_distinct, by decide⟩, by decide, by simp only [Instr.lengthReadable]; decide,
    by simp only [Instr.lengthReadable, List.length_replicate]; decide,
    by simp only [Instr.lengthReadable, List.length_replicate]; decide,
    by simp only [Instr.lengthReadable, List.length_nil]; decide,
    by rw [List.length_replicate], by rw [List.length_replicate]; decide⟩

/-- EncodeOfDecode. -/
theorem witness_EncodeOfDecode :
    decodeCommand Config.params [137, 255, 255, 0, 1] = .ok (.drive (-1) 1) := by decide

/-- FrameChecksumUnique: the longest payload, and both sides of the equivalence. -/
theorem witness_FrameChecksumUnique :
    (List.replicate 255 (0#8)).length ≤ 255 ∧ frameChecksum [236] = 0 ∧ frameChecksum [10, 20, 30] = 174 := by
  refine ⟨by rw [List.length_replicate], by decide, by decide⟩

/-- PollTurn: no byte waiting, and a byte for each of the four events. -/
theorem witness_PollTurn :
    (∃ s : State, s.inputs = .poll 0 :: [] ∧ s.chan.rx = []) ∧
    (∃ s : State, s.inputs = .poll 0 :: [] ∧ s.chan.rx = [19] ∧ (framerStep 8 s.fr 19).2 = .none) ∧
    (∃ s : State, s.inputs = .poll 0 :: [] ∧ s.chan.rx = [20] ∧ (framerStep 8 s.fr 20).2 = .discard 20) ∧
    (∃ s : State, s.inputs = .poll 0 :: [] ∧ s.chan.rx = [237] ∧ (framerStep 8 s.fr 237).2 = .accept 0) ∧
    (∃ s : State, s.inputs = .poll 0 :: [] ∧ s.chan.rx = [238] ∧ (framerStep 8 s.fr 238).2 = .reject) :=
  ⟨⟨mk idle [] [.poll 0], rfl, rfl⟩, ⟨mk idle [19] [.poll 0], rfl, rfl, rfl⟩,
    ⟨mk idle [20] [.poll 0], rfl, rfl, rfl⟩, ⟨mk (fr .waitChecksum 0 0 19) [237] [.poll 0], rfl, rfl, rfl⟩,
    ⟨mk (fr .waitChecksum 0 0 19) [238] [.poll 0], rfl, rfl, rfl⟩⟩

/-- PollReturnsWaitingFrame: a frame and a byte after it. -/
theorem witness_PollReturnsWaitingFrame :
    ∃ (s : State) (p : List Byte), p.length ≤ 255 ∧ s.fr.st = .idle ∧ s.chan.rx = frame p ++ [19] ∧
      s.inputs = .poll 0 :: [] :=
  ⟨mk idle [19, 3, 10, 20, 30, 174, 19] [.poll 0], [10, 20, 30], by decide, rfl, by decide, rfl⟩

/-- FrameBytesNeverReachLineReader: a header that flushes a partly filled line. -/
theorem witness_FrameBytesNeverReachLineReader :
    ∃ s t : State, s.inputs = .poll 0 :: [] ∧ step s = .next t ∧ (∀ x, t.event ≠ some (.discard x)) ∧
      t.sur.line ≠ s.sur.line :=
  have h : ∃ t, step (withLine [65] [19]) = .next t ∧ t.event = some .none ∧ t.sur.line = [] := ⟨_, rfl, rfl, rfl⟩
  h.elim fun t ⟨h1, h2, h3⟩ =>
    ⟨withLine [65] [19], t, rfl, h1, by rw [h2]; exact fun x h => (nomatch h), by rw [h3]; decide⟩

/-- ReadExactReturnsWaitingBytes, and ReadExactBoundedWait with fewer bytes waiting than asked for. -/
theorem witness_ReadExactReturnsWaitingBytes :
    (∃ s : State, s.chan.rx = [4, 5] ++ [6] ∧ s.inputs = .readExact 2 [] :: []) ∧
    (∃ s : State, s.chan.rx.length + 1 = 3 ∧ s.sur.arrivals = [] ∧ s.inputs = .readExact 3 [] :: []) :=
  ⟨⟨mk idle [4, 5, 6] [.readExact 2 []], rfl, rfl⟩, ⟨mk idle [4, 5] [.readExact 3 []], rfl, rfl, rfl⟩⟩

/-- ScriptCountChecked: the two counts beside the limit. -/
theorem witness_ScriptCountChecked :
    (∃ s : State, s.inputs = .scriptCount 10 :: [] ∧ s.chan.rx = [100] ∧ (100#8).toNat ≤ 100) ∧
    (∃ s : State, s.inputs = .scriptCount 10 :: [] ∧ s.chan.rx = [101] ∧ 100 < (101#8).toNat) :=
  ⟨⟨mk idle [100] [.scriptCount 10], rfl, rfl, by decide⟩, ⟨mk idle [101] [.scriptCount 10], rfl, rfl, by decide⟩⟩

/-- GetScriptCopiesUpToCapacity: more bytes than the destination holds. -/
theorem witness_GetScriptCopiesUpToCapacity :
    ∃ (s : State) (bs : List Byte), (3#8).toNat ≤ 100 ∧ bs.length = (3#8).toNat ∧
      s.chan.rx = 3 :: (bs ++ [9]) ∧ s.inputs = .getScript 2 :: [] :=
  ⟨mk idle [3, 5, 6, 7, 9] [.getScript 2], [5, 6, 7], by decide, rfl, rfl, rfl⟩

/-- QuerySendsThenReads: both clauses. -/
theorem witness_QuerySendsThenReads :
    (∃ s : State, s.chan.rx = [4] ++ [5] ∧ lookupByte s.params.sensorLen 7 = some 1 ∧
      s.inputs = .querySensor 7 :: []) ∧
    (∃ s : State, s.chan.rx = [4] ++ [5] ∧ s.inputs = .queryMulti [7, 8] 1 :: []) :=
  ⟨⟨mk idle [4, 5] [.querySensor 7], rfl, rfl, rfl⟩, ⟨mk idle [4, 5] [.queryMulti [7, 8] 1], rfl, rfl⟩⟩

/-- LineReaderAssemblesLines: a byte that just fits, and the terminator with and without a carriage return before. -/
theorem witness_LineReaderAssemblesLines :
    (∃ s t : State, s.inputs = .poll 0 :: [] ∧ s.fr.st = .idle ∧ s.chan.rx = [65] ∧ step s = .next t ∧
      s.sur.line.length + 2 = s.params.line.maxLen) ∧
    (∃ s t : State, s.inputs = .poll 0 :: [] ∧ s.fr.st = .idle ∧ s.chan.rx = [10] ∧ step s = .next t ∧
      s.params.line.keepTerminator = false ∧ s.params.line.stripLoneCr = false ∧ s.sur.line = [66] ++ [13#8]) ∧
    (∃ s t : State, s.inputs = .poll 0 :: [] ∧ s.fr.st = .idle ∧ s.chan.rx = [10] ∧ step s = .next t ∧
      s.params.line.keepTerminator = false ∧ s.params.line.stripLoneCr = false ∧
      s.sur.line.getLast? ≠ some 13#8) := by
  exact ⟨⟨withLine [66, 66] [65], _, rfl, rfl, rfl, rfl, rfl⟩,
    ⟨withLine [66, 13] [10], _, rfl, rfl, rfl, rfl, rfl, rfl, rfl⟩,
    ⟨withLine [66] [10], _, rfl, rfl, rfl, rfl, rfl, rfl, by decide⟩⟩

/-- PulseDrivenWhenDue: at the due time, just before it, and with no byte. -/
theorem witness_PulseDrivenWhenDue :
    (∃ s t : State, s.inputs = .poll 100 :: [] ∧ step s = .next t ∧ s.chan.rx ≠ [] ∧
      pulseDue s.params.clockBits 100 s.sur.due = true) ∧
    (∃ s t : State, s.inputs = .poll 99 :: [] ∧ step s = .next t ∧ s.chan.rx ≠ [] ∧
      pulseDue s.params.clockBits 99 s.sur.due = false) ∧
    (∃ s t : State, s.inputs = .poll 100 :: [] ∧ step s = .next t ∧ s.chan.rx = []) :=
  ⟨⟨mk idle [20] [.poll 100], _, rfl, rfl, by decide, by decide⟩,
    ⟨mk idle [20] [.poll 99], _, rfl, rfl, by decide, by decide⟩, ⟨mk idle [] [.poll 100], _, rfl, rfl, rfl⟩⟩

/-- PulseComparisonWrapSafe: a clock that has wrapped past the due time, both ways. -/
theorem witness_PulseComparisonWrapSafe :
    0 < 16 ∧ 5 < 2 ^ 16 ∧ 65530 < 2 ^ 16 ∧ pulseDue 16 5 65530 = true ∧ pulseDue 16 65530 5 = false := by decide

/-- ChannelMovesBytesInOrder: both clauses. -/
theorem witness_ChannelMovesBytesInOrder :
    (∃ s : State, s.inputs = .arrive 7 :: []) ∧
    (∃ s : State, s.inputs = .transmit :: [] ∧ s.chan.tx = 128#8 :: []) :=
  ⟨⟨mk idle [] [.arrive 7], rfl⟩, ⟨(mk idle [] [.transmit]).chanWrite [128], rfl, rfl⟩⟩

/-- ConsumerReadsCell: the last cell that exists and the first that does not. -/
theorem witness_ConsumerReadsCell :
    (∃ s : State, s.inputs = .readCell 7 :: [] ∧ 7 < s.params.cap) ∧
    (∃ s : State, s.inputs = .readCell 8 :: [] ∧ s.params.cap ≤ 8) :=
  ⟨⟨mk idle [] [.readCell 7], rfl, by decide⟩, ⟨mk idle [] [.readCell 8], rfl, by decide⟩⟩

end Sys2Proof.Tests
end

section
/-!
PROOFS. What a step can do to FR, its cells and the parameters, said once (`step_framer_cases`); the invariant of R16
at reset and at every byte FR takes; and the statements of 10_state.md, each a short use of these.
-/

namespace Sys2Proof.Machine

open Sys2Proof

/-! ### The invariant of R16 -/

theorem Framer.reset_inv (cap k : Nat) : Framer.reset.inv cap k := by
  refine ⟨List.Pairwise.nil, ?_, ?_, ?_, ?_⟩ <;> simp [Framer.reset]

/-- Between frames (Idle, WaitCount) R16 says nothing but what it says of the buffer. -/
theorem Framer.inv_of_no_payload {cap k : Nat} {f : Framer} (hst : f.st = .idle ∨ f.st = .waitCount)
    (hwf : f.buf.wf) (hbound : ∀ c ∈ f.buf, c.1 < cap) : f.inv cap k := by
  refine ⟨hwf, hbound, ?_, ?_, ?_⟩ <;> rcases hst with h | h <;> simp [h]

/-- After the length byte no payload byte is consumed, and the sum is that of header and length (R123). -/
theorem Framer.consumed_nil {cap k : Nat} {f : Framer} (hcnt : f.cnt = 0#8) (hsum : f.sum = add8 header f.len) :
    f.consumed cap k [] := by
  refine ⟨by simp [hcnt], ?_, fun i hi => by simp [hcnt] at hi⟩
  rw [hsum, add8_toNat]
  simp [byteSum]

/-- While `cnt < len` the 8-bit count does not wrap at a payload byte (R13). -/
theorem toNat_succ_of_lt {cnt len : Byte} (h : cnt.toNat < len.toNat) : (cnt + 1#8).toNat = cnt.toNat + 1 := by
  bv_omega

/-- A payload byte keeps the invariant: the consumed bytes grow by it (`Framer.consumed_data`), and the count either
stays below the length or reaches it, which ends the payload (R124). -/
theorem Framer.inv_data {cap k : Nat} {f : Framer} (h : f.inv cap k) (hst : f.st = .waitBytes) (b : Byte) :
    Framer.inv cap k { f with
      st := if f.cnt + 1#8 = f.len then .waitChecksum else .waitBytes
      cnt := f.cnt + 1#8
      sum := add8 f.sum b
      buf := f.buf.store cap f.cnt.toNat b } := by
  obtain ⟨hwf, hbound, hbytes, -, hpayload⟩ := h
  have hlt := hbytes hst
  obtain ⟨p, hp⟩ := hpayload (.inl hst)
  refine ⟨Memory.wf_store hwf .., Memory.bounded_store hbound _ b, ?_, ?_,
    fun _ => ⟨p ++ [b], Framer.consumed_data b _ hp hlt⟩⟩
  · intro hopen
    have hne : f.cnt + 1#8 ≠ f.len := fun heq => by simp [heq] at hopen
    have hcnt := toNat_succ_of_lt hlt
    have : (f.cnt + 1#8).toNat ≠ f.len.toNat := fun heq => hne (BitVec.eq_of_toNat_eq heq)
    show (f.cnt + 1#8).toNat < f.len.toNat
    omega
  · intro hclosed
    by_contra hne
    simp [show f.cnt + 1#8 ≠ f.len from hne] at hclosed

/-- The length byte opens a payload of which nothing is consumed yet (R123). -/
theorem Framer.inv_count {cap k : Nat} {f : Framer} (h : f.inv cap k) (n : Byte) :
    Framer.inv cap k { f with
      st := if n = 0#8 then .waitChecksum else .waitBytes
      len := n
      cnt := 0#8
      sum := add8 header n } := by
  obtain ⟨hwf, hbound, -, -, -⟩ := h
  refine ⟨hwf, hbound, ?_, ?_, fun _ => ⟨[], Framer.consumed_nil rfl rfl⟩⟩
  · intro hopen
    have hne : n ≠ 0#8 := fun heq => by simp [heq] at hopen
    show (0#8).toNat < n.toNat
    bv_omega
  · intro hclosed
    by_contra hne
    simp [show n ≠ 0#8 from fun heq => hne heq.symm] at hclosed

/-- FR's whole step keeps the invariant, in each parse position. -/
theorem Framer.inv_framerStep {cap k : Nat} {f : Framer} (h : f.inv cap k) (b : Byte) :
    (framerStep cap f b).1.inv cap k := by
  have ⟨hwf, hbound, _⟩ := h
  cases hst : f.st with
  | idle =>
    by_cases hb : b = header
    · have hopen := Framer.inv_of_no_payload (k := k) (f := { f with st := .waitCount }) (.inr rfl) hwf hbound
      simpa [framerStep, hst, hb] using hopen
    · simpa [framerStep, hst, hb] using h
  | waitCount =>
    have hcount := Framer.inv_count h b
    by_cases hb : b = 0#8 <;> simpa [framerStep, hst, hb] using hcount
  | waitBytes =>
    have hdata := Framer.inv_data h hst b
    by_cases hlast : f.cnt + 1#8 = f.len <;> simpa [framerStep, hst, hlast, Memory.store] using hdata
  | waitChecksum =>
    have hidle := Framer.inv_of_no_payload (k := k) (f := { f with st := .idle, sum := add8 f.sum b })
      (.inl rfl) hwf hbound
    by_cases hsum : add8 f.sum b = 0#8 <;> simpa [framerStep, hst, hsum] using hidle

/-! ### One instruction -/

/-- Everything an FR instruction can touch: FR and the event; of the buffer only FR.DATA's bounds-checked store. -/
theorem exec_framer_cases {i : Instr} (s : State) (h : i.isCommand = false) :
    ∃ f e, exec i s = .next { s with fr := f, event := some e } ∧
      ((∃ b, i = .frData b ∧ f.buf = s.fr.buf.store s.params.cap s.fr.cnt.toNat b) ∨
       ((∀ b, i ≠ .frData b) ∧ f.buf = s.fr.buf)) := by
  cases i <;> simp only [Instr.isCommand, Bool.true_eq_false] at h
  case frHdr => exact ⟨_, _, rfl, .inr ⟨nofun, rfl⟩⟩
  case frSkip b => exact ⟨s.fr, _, rfl, .inr ⟨nofun, rfl⟩⟩
  case frCount n => exact ⟨_, _, rfl, .inr ⟨nofun, rfl⟩⟩
  case frData b => exact ⟨_, _, rfl, .inl ⟨b, rfl, rfl⟩⟩
  case frChk c =>
    rcases execFrChk_cases c s with ⟨-, hx⟩ | ⟨-, hx⟩
    all_goals exact ⟨_, _, hx, .inr ⟨nofun, rfl⟩⟩

/-- Decoding a byte and running its meaning is the rule's one-function step on FR, and touches FR and the event only
(R126). -/
theorem feedByte_eq_framerStep (b : Byte) (s : State) : feedByte b s =
    .next { s with
      fr := (framerStep s.params.cap s.fr b).1
      event := some (framerStep s.params.cap s.fr b).2 } := by
  cases hst : s.fr.st with
  | idle =>
    by_cases hb : b = header
    · subst hb
      simp [feedByte_idle_header hst, framerStep, hst, State.emit]
    · simp [feedByte_idle_other hst hb, framerStep, hst, hb, State.emit]
  | waitCount =>
    by_cases hb : b = 0#8 <;>
      simp [feedByte_waitCount hst, execFrCount, framerStep, hst, hb, State.emit, startSum]
  | waitBytes =>
    by_cases hlast : s.fr.cnt + 1#8 = s.fr.len <;>
      simp [feedByte_waitBytes hst, execFrData, framerStep, hst, hlast, State.emit, Memory.store]
  | waitChecksum =>
    rw [feedByte_waitChecksum hst]
    rcases execFrChk_cases b s with ⟨hsum, hx⟩ | ⟨hsum, hx⟩ <;>
      simp [hx, framerStep, hst, hsum, State.emit, State.takeChecksumMismatch]

/-! ### What keeps FR -/

/-- FR, the numbering of its unlisted cells and the parameters are the same in both states. -/
structure State.SameFramer (s t : State) : Prop where
  fr : t.fr = s.fr
  cells : t.cells = s.cells
  params : t.params = s.params

theorem State.SameFramer.refl (s : State) : s.SameFramer s := ⟨rfl, rfl, rfl⟩

theorem State.SameFramer.trans {s t u : State} (hst : s.SameFramer t) (htu : t.SameFramer u) : s.SameFramer u :=
  ⟨htu.fr.trans hst.fr, htu.cells.trans hst.cells, htu.params.trans hst.params⟩

theorem State.SameFramer.answer {s t : State} (h : s.SameFramer t) (r : Report) : s.SameFramer (t.answer r) :=
  ⟨h.fr, h.cells, h.params⟩

theorem State.SameFramer.queue {s t : State} (h : s.SameFramer t) (is : List Input) : s.SameFramer (t.queue is) :=
  ⟨h.fr, h.cells, h.params⟩

theorem State.SameFramer.cell {s t : State} (h : s.SameFramer t) (a : Nat) : t.cell a = s.cell a := by
  simp [State.cell, h.fr, h.cells]

theorem State.SameFramer.inv {s t : State} (h : s.SameFramer t) (hs : s.inv) : t.inv := by
  rwa [State.inv, h.fr, h.cells, h.params]

/-- A command touches the channel and the free-value index only (R18). -/
theorem exec_command_frame {i : Instr} {s t : State} (hi : i.isCommand = true) (h : exec i s = .next t) :
    s.SameFramer t ∧ t.event = s.event ∧ t.report = s.report := by
  rcases exec_command_cases s hi with hx | ⟨code, -, hx⟩
  all_goals
    cases hx.symm.trans h
    exact ⟨⟨rfl, rfl, rfl⟩, rfl, rfl⟩

theorem runCommand_sameFramer {i : Instr} {s t : State} (h : runCommand i s = .next t) : s.SameFramer t := by
  unfold runCommand at h
  split at h
  next hwf => exact (exec_command_frame (Bool.and_eq_true_iff.mp hwf).1 h).1
  next => cases h

theorem State.takeByte_sameFramer {s t : State} {r : Option Byte} (h : s.takeByte = (r, t)) : s.SameFramer t := by
  obtain ⟨_, _, hx, hfr, hcells, hparams, -⟩ := s.takeByte_spec
  cases hx.symm.trans h
  exact ⟨hfr, hcells, hparams⟩

theorem runReadExact_sameFramer {n : Nat} {got : List Byte} {s t : State}
    (h : runReadExact n got s = .next t) : s.SameFramer t := by
  cases n with
  | zero => cases h; exact ⟨rfl, rfl, rfl⟩
  | succ n =>
    simp only [runReadExact] at h
    split at h
    next htake => cases h; exact (State.takeByte_sameFramer htake).queue _
    next htake => cases h; exact (State.takeByte_sameFramer htake).answer _

theorem runScriptCount_sameFramer {cap : Nat} {s t : State} (h : runScriptCount cap s = .next t) :
    s.SameFramer t := by
  unfold runScriptCount at h
  split at h
  next htake =>
    split at h
    · cases h; exact (State.takeByte_sameFramer htake).answer _
    · cases h; exact (State.takeByte_sameFramer htake).queue _
  next htake => cases h; exact (State.takeByte_sameFramer htake).answer _

theorem runScriptBody_sameFramer {left cap : Nat} {count : Byte} {got : List Byte} {s t : State}
    (h : runScriptBody left cap count got s = .next t) : s.SameFramer t := by
  cases left with
  | zero => cases h; exact ⟨rfl, rfl, rfl⟩
  | succ left =>
    simp only [runScriptBody] at h
    split at h
    next htake => cases h; exact (State.takeByte_sameFramer htake).queue _
    next htake => cases h; exact (State.takeByte_sameFramer htake).answer _

theorem runReadCell_sameFramer {i : Nat} {s t : State} (h : runReadCell i s = .next t) : s.SameFramer t := by
  unfold runReadCell at h
  split at h
  · cases h; exact ⟨rfl, rfl, rfl⟩
  · cases h

/-! ### What hands FR a byte -/

/-- FR has taken byte `b`: its registers and buffer are those of R126's step, its parameters and the numbering of the
unlisted cells stand. -/
structure State.TookByte (s t : State) (b : Byte) : Prop where
  fr : t.fr = (framerStep s.params.cap s.fr b).1
  cells : t.cells = s.cells
  params : t.params = s.params

theorem State.TookByte.inv {s t : State} {b : Byte} (h : s.TookByte t b) (hs : s.inv) : t.inv := by
  rw [State.inv, h.fr, h.cells, h.params]
  exact Framer.inv_framerStep hs b

theorem State.TookByte.of_sameFramer {s u v t : State} {b : Byte} (hsu : s.SameFramer u) (huv : u.TookByte v b)
    (hvt : v.SameFramer t) : s.TookByte t b where
  fr := by rw [hvt.fr, huv.fr, hsu.fr, hsu.params]
  cells := hvt.cells.trans (huv.cells.trans hsu.cells)
  params := hvt.params.trans (huv.params.trans hsu.params)

theorem feedByte_tookByte {b : Byte} {s t : State} (h : feedByte b s = .next t) : s.TookByte t b := by
  cases (feedByte_eq_framerStep b s).symm.trans h
  exact ⟨rfl, rfl, rfl⟩

theorem State.chanRead_sameFramer {s t : State} {b : Byte} (h : s.chanRead = some (b, t)) : s.SameFramer t := by
  rcases s.chanRead_cases with ⟨-, hread⟩ | ⟨_, _, -, hread⟩
  · cases hread.symm.trans h
  · cases hread.symm.trans h
    exact ⟨rfl, rfl, rfl⟩

theorem State.liveness_sameFramer (s : State) (now : Nat) : s.SameFramer (s.liveness now) := by
  obtain ⟨_, _, h⟩ := s.liveness_frame now
  rw [h]
  exact ⟨rfl, rfl, rfl⟩

/-- What `pollOnce` does with the event of the step leaves FR as that step left it (R150). -/
theorem State.afterPolled_sameFramer (s : State) (now : Nat) : s.SameFramer (s.afterPolled now) := by
  unfold State.afterPolled
  split
  case h_1 x _ =>
    obtain ⟨_, _, h⟩ := s.lineReader_frame x
    rw [h]
    exact ⟨rfl, rfl, rfl⟩
  case h_4 =>
    obtain ⟨_, _, h⟩ := s.lineAtHeader_frame
    rw [h]
    exact ⟨rfl, rfl, rfl⟩
  all_goals exact ⟨rfl, rfl, rfl⟩

theorem runFeed_tookByte {s t : State} (h : runFeed s = .next t) :
    ∃ b rx, s.chan.rx = b :: rx ∧ s.TookByte t b := by
  unfold runFeed at h
  rcases s.chanRead_cases with ⟨-, hread⟩ | ⟨b, rx, hrx, hread⟩ <;> simp only [hread, reduceCtorEq] at h
  exact ⟨b, rx, hrx, .of_sameFramer (State.chanRead_sameFramer hread) (feedByte_tookByte h) (.refl t)⟩

theorem runPoll_cases {now : Nat} {s t : State} (h : runPoll now s = .next t) :
    s.SameFramer t ∨ ∃ b rx, s.chan.rx = b :: rx ∧ s.TookByte t b := by
  unfold runPoll at h
  rcases s.chanRead_cases with ⟨-, hread⟩ | ⟨b, rx, hrx, hread⟩ <;> simp only [hread] at h
  · cases h
    exact .inl ⟨rfl, rfl, rfl⟩
  · refine .inr ⟨b, rx, hrx, ?_⟩
    split at h
    next v hfed =>
      cases h
      exact .of_sameFramer ((State.chanRead_sameFramer hread).trans (State.liveness_sameFramer _ now))
        (feedByte_tookByte hfed) (v.afterPolled_sameFramer now)
    all_goals cases h

/-! ### The step -/

/-- Everything one input can do to FR, its cells and the parameters. -/
theorem runInput_framer_cases {i : Input} {s t : State} (h : runInput i s = .next t) :
    s.SameFramer t ∨
    ((i = .feed ∨ ∃ now, i = .poll now) ∧ ∃ b rx, s.chan.rx = b :: rx ∧ s.TookByte t b) ∨
    (i = .reset ∧ t = s.resetFramer) := by
  cases i with
  | feed => exact .inr (.inl ⟨.inl rfl, runFeed_tookByte h⟩)
  | poll now => exact (runPoll_cases h).imp_right fun hbyte => .inl ⟨.inr ⟨now, rfl⟩, hbyte⟩
  | reset => cases h; exact .inr (.inr ⟨rfl, rfl⟩)
  | command c => exact .inl (runCommand_sameFramer h)
  | readExact n got => exact .inl (runReadExact_sameFramer h)
  | scriptCount cap => exact .inl (runScriptCount_sameFramer h)
  | scriptBody left cap count got => exact .inl (runScriptBody_sameFramer h)
  | readCell i => exact .inl (runReadCell_sameFramer h)
  | transmit => cases h; exact .inl ⟨s.chanTransmit_fr, s.chanTransmit_cells, s.chanTransmit_params⟩
  | arrive | openChannel | querySensor | queryMulti | getScript => cases h; exact .inl ⟨rfl, rfl, rfl⟩

/-- Everything a step can do to FR, its cells and the parameters (R17): nothing, R126's step on the oldest waiting
byte, or a reset. -/
theorem step_framer_cases {s t : State} (h : step s = .next t) :
    s.SameFramer t ∨
    (((∃ rest, s.inputs = .feed :: rest) ∨ ∃ now rest, s.inputs = .poll now :: rest) ∧
      ∃ b rx, s.chan.rx = b :: rx ∧ s.TookByte t b) ∨
    ((∃ rest, s.inputs = .reset :: rest) ∧ t.fr = Framer.reset ∧ t.params = s.params) := by
  cases hin : s.inputs with
  | nil =>
    cases (step_nil hin).symm.trans h
    exact .inl ⟨rfl, rfl, rfl⟩
  | cons i rest =>
    rw [step_cons hin] at h
    have hstart : s.SameFramer { s.clearPorts with inputs := rest } := ⟨rfl, rfl, rfl⟩
    rcases runInput_framer_cases h with hsame | ⟨hi, b, rx, hrx, hbyte⟩ | ⟨rfl, rfl⟩
    · exact .inl (hstart.trans hsame)
    · refine .inr (.inl ⟨?_, b, rx, hrx, .of_sameFramer hstart hbyte (.refl t)⟩)
      rcases hi with rfl | ⟨now, rfl⟩
      · exact .inl ⟨rest, rfl⟩
      · exact .inr ⟨now, rest, rfl⟩
    · exact .inr (.inr ⟨⟨rest, rfl⟩, rfl, rfl⟩)

/-! ### The statements -/

/-- Settles O19: R16 speaks of FR only, so it is kept by R126's step and at reset. -/
theorem stepKeepsInvariant : Obligations.StepKeepsInvariant := by
  intro s t hs h
  rcases step_framer_cases h with hsame | ⟨-, b, rx, -, hbyte⟩ | ⟨-, hfr, -⟩
  · exact hsame.inv hs
  · exact hbyte.inv hs
  · rw [State.inv, hfr]
    exact Framer.reset_inv _ _

/-- Settles O8: the buffer of an FR instruction is the old one, or FR.DATA's bounds-checked store into it. -/
theorem framerBufferFrame : Obligations.FramerBufferFrame := by
  intro s t i hi h
  obtain ⟨f, e, hx, hbuf⟩ := exec_framer_cases s hi
  cases hx.symm.trans h
  rcases hbuf with ⟨b, rfl, hbuf⟩ | ⟨hno, hbuf⟩
  · simp only [State.cell, hbuf, Memory.read_store]
    refine ⟨?_, ?_⟩
    · rintro _ ⟨⟩ hlt
      exact ⟨by simp [hlt], fun a ha => by simp [ha.symm]⟩
    · rintro (hno | hge) a
      · exact absurd rfl (hno b)
      · simp [hge.not_gt]
  · exact ⟨fun b hb => absurd hb (hno b), fun _ a => by simp [State.cell, hbuf]⟩

/-- Settles O14: the parameters are among what `step_framer_cases` follows. -/
theorem stepKeepsParameters : Obligations.StepKeepsParameters := by
  intro s t h
  rcases step_framer_cases h with hsame | ⟨-, b, rx, -, hbyte⟩ | ⟨-, -, hparams⟩
  · exact hsame.params
  · exact hbyte.params
  · exact hparams

/-- Settles O15: a step that keeps FR keeps what every cell holds. -/
theorem framerChangesOnlyByByteOrReset : Obligations.FramerChangesOnlyByByteOrReset := by
  intro s t h hchange
  rcases step_framer_cases h with hsame | ⟨hinput, b, rx, hrx, -⟩ | ⟨hreset, -⟩
  · rcases hchange with hfr | ⟨a, ha⟩
    · exact absurd hsame.fr hfr
    · exact absurd (hsame.cell a) ha
  · exact .inl ⟨hinput, by simp [hrx]⟩
  · exact .inr hreset

/-- Settles O38: a command writes its bytes or is BAUD; an FR instruction writes FR and the event. -/
theorem unitsDoNotTouchEachOther : Obligations.UnitsDoNotTouchEachOther := by
  intro s t i h
  refine ⟨fun hi => ?_, fun hi => ?_⟩
  · obtain ⟨hsame, hevent, hreport⟩ := exec_command_frame hi h
    refine ⟨hsame.fr, hsame.cell, hevent, hreport, fun hbaud => ?_⟩
    rcases exec_command_cases s hi with hx | ⟨code, rfl, -⟩
    · cases hx.symm.trans h
      exact ⟨rfl, rfl, rfl⟩
    · exact absurd rfl (hbaud code)
  · obtain ⟨f, e, hx, -⟩ := exec_framer_cases s hi
    cases hx.symm.trans h
    rfl

/-- Settles O13: a step clears both ports before it reads anything. -/
theorem stepReadsNoEarlierEvent : Obligations.StepReadsNoEarlierEvent := by
  intro s e r
  have hclear : State.clearPorts { s with event := e, report := r } = s.clearPorts := rfl
  simp only [step, runNext, hclear]

/-- Settles O17: the values stand in the definition of the reset state. -/
theorem resetValues : Obligations.ResetValues := ⟨rfl, rfl, rfl, rfl, rfl⟩

/-- Settles O18: FR's reset state has the invariant for every capacity. -/
theorem invariantAtReset : Obligations.InvariantAtReset := Framer.reset_inv _ _

end Sys2Proof.Machine
end

section
/-!
PROOFS. The equations of a step on each kind of input; what an input can do to the transmit side of the channel, and
how it can stop; and the statements of 20_memory.md, each a short use of these.
-/

namespace Sys2Proof.Machine

open Sys2Proof

/-! ### One input -/

theorem runFeed_nil {s : State} (h : s.chan.rx = []) : runFeed s = .refused .chanReadEmpty := by
  simp [runFeed, s.chanRead_nil h]

theorem runFeed_cons {s : State} {b : Byte} {rx : List Byte} (h : s.chan.rx = b :: rx) :
    runFeed s = feedByte b { s with chan := { s.chan with rx := rx } } := by
  simp [runFeed, s.chanRead_cons h]

theorem runCommand_of_wellFormed {i : Instr} (h : i.isWellFormedCommand = true) (s : State) :
    runCommand i s = exec i s := if_pos h

theorem runCommand_of_not_wellFormed {i : Instr} (h : i.isWellFormedCommand = false) (s : State) :
    runCommand i s = .refused .notACommand := by
  simp [runCommand, h]

theorem runReadCell_of_lt {i : Nat} {s : State} (h : i < s.params.cap) :
    runReadCell i s = .next (s.answer (.cell (s.cell i))) := if_pos h

theorem runReadCell_of_ge {i : Nat} {s : State} (h : s.params.cap ≤ i) :
    runReadCell i s = .fault (.noSuchCell i) := if_neg h.not_gt

theorem State.chanTransmit_cons {s : State} {b : Byte} {tx : List Byte} (h : s.chan.tx = b :: tx) :
    s.chanTransmit =
      { s with chan := { s.chan with tx := tx, wire := s.chan.wire ++ [(s.chan.rate, b)] } } := by
  simp [State.chanTransmit, h]

/-- CE takes every command (R101). -/
theorem exec_command_next {i : Instr} (hi : i.isCommand = true) (s : State) : ∃ t, exec i s = .next t := by
  rcases exec_command_cases s hi with hx | ⟨_, -, hx⟩ <;> exact ⟨_, hx⟩

/-- A command that is not BAUD only writes its encoding (R80). -/
theorem exec_command_of_not_baud {i : Instr} (s : State) (hi : i.isCommand = true) (hbaud : ∀ k, i ≠ .baud k) :
    exec i s = .next (s.chanWrite (encode s.params i)) := by
  rcases exec_command_cases s hi with hx | ⟨code, rfl, -⟩
  · exact hx
  · exact absurd rfl (hbaud code)

theorem Instr.isCommand_of_wellFormed {i : Instr} (h : i.isWellFormedCommand = true) : i.isCommand = true :=
  (Bool.and_eq_true_iff.mp h).1

/-! ### A step on a byte or a command -/

theorem step_feed {s : State} {b : Byte} {rx : List Byte} {rest : List Input}
    (hin : s.inputs = .feed :: rest) (hrx : s.chan.rx = b :: rx) :
    step s = feedByte b
      { s with inputs := rest, event := none, report := none, chan := { s.chan with rx := rx } } := by
  rw [step_cons hin]
  exact runFeed_cons hrx

theorem step_command {s : State} {i : Instr} {rest : List Input}
    (hin : s.inputs = .command i :: rest) (hi : i.isWellFormedCommand = true) :
    step s = exec i { s with inputs := rest, event := none, report := none } := by
  rw [step_cons hin]
  exact runCommand_of_wellFormed hi _

/-! ### What leaves the transmit side alone -/

/-- The channel but for its receive queue: the bytes queued, the bytes sent, and the rate. -/
def State.transmitSide (s : State) : Channel := { s.chan with rx := [] }

theorem State.transmitSide_of_chan {s t : State} (h : t.chan = s.chan) : t.transmitSide = s.transmitSide := by
  simp only [State.transmitSide, h]

@[simp] theorem State.transmitSide_answer (s : State) (r : Report) :
    (s.answer r).transmitSide = s.transmitSide := rfl

@[simp] theorem State.transmitSide_queue (s : State) (is : List Input) :
    (s.queue is).transmitSide = s.transmitSide := rfl

@[simp] theorem State.transmitSide_lineReader (s : State) (x : Byte) :
    (s.lineReader x).transmitSide = s.transmitSide := by
  obtain ⟨_, _, h⟩ := s.lineReader_frame x
  rw [h]
  rfl

@[simp] theorem State.transmitSide_lineAtHeader (s : State) : s.lineAtHeader.transmitSide = s.transmitSide := by
  obtain ⟨_, _, h⟩ := s.lineAtHeader_frame
  rw [h]
  rfl

@[simp] theorem State.transmitSide_liveness (s : State) (now : Nat) :
    (s.liveness now).transmitSide = s.transmitSide := by
  obtain ⟨_, _, h⟩ := s.liveness_frame now
  rw [h]
  rfl

@[simp] theorem State.transmitSide_afterPolled (s : State) (now : Nat) :
    (s.afterPolled now).transmitSide = s.transmitSide := by
  unfold State.afterPolled
  split <;> simp

theorem State.takeByte_transmitSide {s t : State} {r : Option Byte} (h : s.takeByte = (r, t)) :
    t.transmitSide = s.transmitSide := by
  obtain ⟨_, _, hx, -, -, -, -, htx, hwire, hrate, -⟩ := s.takeByte_spec
  cases hx.symm.trans h
  simp [State.transmitSide, htx, hwire, hrate]

/-- FR takes every byte, and leaves the channel alone (R42). -/
theorem feedByte_next (b : Byte) (s : State) : ∃ t, feedByte b s = .next t ∧ t.chan = s.chan :=
  ⟨_, feedByte_eq_framerStep b s, rfl⟩

theorem runFeed_next {s : State} (h : s.chan.rx ≠ []) :
    ∃ t, runFeed s = .next t ∧ t.transmitSide = s.transmitSide := by
  obtain ⟨b, rx, hrx⟩ := List.exists_cons_of_ne_nil h
  obtain ⟨t, ht, hchan⟩ := feedByte_next b { s with chan := { s.chan with rx := rx } }
  exact ⟨t, (runFeed_cons hrx).trans ht, by simp [State.transmitSide, hchan]⟩

theorem runPoll_next (now : Nat) (s : State) :
    ∃ t, runPoll now s = .next t ∧ t.transmitSide = s.transmitSide := by
  rcases s.chanRead_cases with ⟨hrx, -⟩ | ⟨b, rx, -, hread⟩
  · exact ⟨_, runPoll_nil hrx, rfl⟩
  · let u : State := { s with chan := { s.chan with rx := rx } }
    obtain ⟨v, hv, hchan⟩ := feedByte_next b (u.liveness now)
    refine ⟨v.afterPolled now, by simp only [runPoll, hread, u, hv], ?_⟩
    calc (v.afterPolled now).transmitSide
      _ = v.transmitSide := v.transmitSide_afterPolled now
      _ = (u.liveness now).transmitSide := State.transmitSide_of_chan hchan
      _ = s.transmitSide := u.transmitSide_liveness now

theorem runReadExact_next (n : Nat) (got : List Byte) (s : State) :
    ∃ t, runReadExact n got s = .next t ∧ t.transmitSide = s.transmitSide := by
  cases n with
  | zero => exact ⟨_, rfl, rfl⟩
  | succ n =>
    rcases htake : s.takeByte with ⟨_ | b, t⟩
    all_goals
      simp only [runReadExact, htake]
      exact ⟨_, rfl, (State.takeByte_transmitSide htake :)⟩

theorem runScriptCount_next (cap : Nat) (s : State) :
    ∃ t, runScriptCount cap s = .next t ∧ t.transmitSide = s.transmitSide := by
  rcases htake : s.takeByte with ⟨_ | c, t⟩ <;> simp only [runScriptCount, htake]
  · exact ⟨_, rfl, (State.takeByte_transmitSide htake :)⟩
  · split <;> exact ⟨_, rfl, (State.takeByte_transmitSide htake :)⟩

theorem runScriptBody_next (left cap : Nat) (count : Byte) (got : List Byte) (s : State) :
    ∃ t, runScriptBody left cap count got s = .next t ∧ t.transmitSide = s.transmitSide := by
  cases left with
  | zero => exact ⟨_, rfl, rfl⟩
  | succ left =>
    rcases htake : s.takeByte with ⟨_ | x, t⟩
    all_goals
      simp only [runScriptBody, htake]
      exact ⟨_, rfl, (State.takeByte_transmitSide htake :)⟩

/-! ### What an input can do to the transmit side, and how it can stop -/

/-- What an input that answers `t` has done to the transmit side: a command ran, the channel moved, or nothing. -/
def Input.TransmitEffect (s t : State) : Input → Prop
  | .command c => c.isCommand = true ∧ exec c s = .next t
  | .transmit => t = s.chanTransmit
  | .openChannel r => t = s.chanReopen r
  | _ => t.transmitSide = s.transmitSide

/-- Every outcome of an input: a next state, or one of the three stops (log 8, 17, 24). -/
theorem runInput_outcome (i : Input) (s : State) :
    (∃ t, runInput i s = .next t ∧ i.TransmitEffect s t) ∨
    (i = .feed ∧ s.chan.rx = [] ∧ runInput i s = .refused .chanReadEmpty) ∨
    (∃ c, i = .command c ∧ c.isWellFormedCommand = false ∧ runInput i s = .refused .notACommand) ∨
    ∃ a, i = .readCell a ∧ s.params.cap ≤ a ∧ runInput i s = .fault (.noSuchCell a) := by
  cases i with
  | feed =>
    by_cases hrx : s.chan.rx = []
    · exact .inr (.inl ⟨rfl, hrx, runFeed_nil hrx⟩)
    · exact .inl (runFeed_next hrx)
  | command c =>
    cases hc : c.isWellFormedCommand with
    | false => exact .inr (.inr (.inl ⟨c, rfl, hc, runCommand_of_not_wellFormed hc s⟩))
    | true =>
      have hi := Instr.isCommand_of_wellFormed hc
      obtain ⟨t, ht⟩ := exec_command_next hi s
      exact .inl ⟨t, (runCommand_of_wellFormed hc s).trans ht, hi, ht⟩
  | readCell a =>
    rcases lt_or_ge a s.params.cap with ha | ha
    · exact .inl ⟨_, runReadCell_of_lt ha, rfl⟩
    · exact .inr (.inr (.inr ⟨a, rfl, ha, runReadCell_of_ge ha⟩))
  | poll now => exact .inl (runPoll_next now s)
  | readExact n got => exact .inl (runReadExact_next n got s)
  | scriptCount cap => exact .inl (runScriptCount_next cap s)
  | scriptBody left cap count got => exact .inl (runScriptBody_next left cap count got s)
  | reset | arrive | transmit | openChannel | querySensor | queryMulti | getScript => exact .inl ⟨_, rfl, rfl⟩

theorem runInput_transmitEffect {i : Input} {s t : State} (h : runInput i s = .next t) : i.TransmitEffect s t := by
  rcases runInput_outcome i s with ⟨u, hx, hu⟩ | ⟨-, -, hx⟩ | ⟨_, -, -, hx⟩ | ⟨_, -, -, hx⟩ <;> cases hx.symm.trans h
  exact hu

theorem step_fault_iff {s : State} {r : Fault} : step s = .fault r ↔
    ∃ i rest, s.inputs = .readCell i :: rest ∧ s.params.cap ≤ i ∧ r = .noSuchCell i := by
  constructor
  · intro h
    cases hin : s.inputs with
    | nil => cases (step_nil hin).symm.trans h
    | cons i rest =>
      rw [step_cons hin] at h
      rcases runInput_outcome i _ with ⟨_, hx, -⟩ | ⟨-, -, hx⟩ | ⟨_, -, -, hx⟩ | ⟨a, rfl, ha, hx⟩ <;>
        cases hx.symm.trans h
      exact ⟨a, rest, rfl, ha, rfl⟩
  · rintro ⟨a, rest, hin, ha, rfl⟩
    exact (step_cons hin).trans (runReadCell_of_ge ha)

theorem step_refused_iff {s : State} {r : Refusal} : step s = .refused r ↔
    (∃ rest, s.inputs = .feed :: rest ∧ s.chan.rx = [] ∧ r = .chanReadEmpty) ∨
    ∃ i rest, s.inputs = .command i :: rest ∧ i.isWellFormedCommand = false ∧ r = .notACommand := by
  constructor
  · intro h
    cases hin : s.inputs with
    | nil => cases (step_nil hin).symm.trans h
    | cons i rest =>
      rw [step_cons hin] at h
      rcases runInput_outcome i _ with ⟨_, hx, -⟩ | ⟨rfl, hrx, hx⟩ | ⟨c, rfl, hc, hx⟩ | ⟨_, -, -, hx⟩ <;>
        cases hx.symm.trans h
      · exact .inl ⟨rest, rfl, hrx, rfl⟩
      · exact .inr ⟨c, rest, rfl, hc, rfl⟩
  · rintro (⟨rest, hin, hrx, rfl⟩ | ⟨c, rest, hin, hc, rfl⟩)
    · exact (step_cons hin).trans (runFeed_nil hrx)
    · exact (step_cons hin).trans (runCommand_of_not_wellFormed hc _)

/-! ### The bytes CE has written -/

/-- Every byte handed to the transmit side so far, oldest first: those sent, then those queued. -/
def Channel.outgoing (c : Channel) : List Byte := c.wire.map Prod.snd ++ c.tx

theorem State.outgoing_of_transmitSide {s t : State} (h : t.transmitSide = s.transmitSide) :
    t.chan.outgoing = s.chan.outgoing :=
  show t.transmitSide.outgoing = s.transmitSide.outgoing by rw [h]

@[simp] theorem State.outgoing_chanWrite (s : State) (bs : List Byte) :
    (s.chanWrite bs).chan.outgoing = s.chan.outgoing ++ bs := by
  simp [Channel.outgoing]

@[simp] theorem State.outgoing_chanDrain (s : State) : s.chanDrain.chan.outgoing = s.chan.outgoing :=
  s.chanDrain_bytes

@[simp] theorem State.outgoing_chanTransmit (s : State) : s.chanTransmit.chan.outgoing = s.chan.outgoing :=
  s.chanTransmit_bytes

/-- Reopening loses no byte where the queue has been drained (R218). -/
theorem State.outgoing_chanReopen {s : State} (h : s.chan.tx = []) (r : Nat) :
    (s.chanReopen r).chan.outgoing = s.chan.outgoing := by
  simp [Channel.outgoing, h]

/-- A command adds its encoding at the end, BAUD too: it drains before it reopens (R41, R97). -/
theorem outgoing_exec_command {i : Instr} {s t : State} (hi : i.isCommand = true) (h : exec i s = .next t) :
    t.chan.outgoing = s.chan.outgoing ++ encode s.params i := by
  rcases exec_command_cases s hi with hx | ⟨code, -, hx⟩ <;> cases hx.symm.trans h
  · simp
  · rw [State.outgoing_chanReopen rfl]
    simp

/-- An input that is no command adds nothing and loses nothing, but for an opening over undrained bytes (R218). -/
theorem Input.TransmitEffect.outgoing_of_not_command {i : Input} {s t : State} (h : i.TransmitEffect s t)
    (hcommand : ∀ c, i ≠ .command c) (hopen : ∀ r, i = .openChannel r → s.chan.tx = []) :
    t.chan.outgoing = s.chan.outgoing := by
  cases i with
  | command c => exact absurd rfl (hcommand c)
  | transmit => cases h; exact s.outgoing_chanTransmit
  | openChannel r => cases h; exact State.outgoing_chanReopen (hopen r rfl) r
  | _ => exact State.outgoing_of_transmitSide h

/-! ### Runs of commands -/

theorem step_command_of_not_baud {s : State} {i : Instr} {rest : List Input}
    (hin : s.inputs = .command i :: rest) (hi : i.isWellFormedCommand = true) (hbaud : ∀ k, i ≠ .baud k) :
    ∃ t, step s = .next t ∧ t.inputs = rest ∧ t.fr = s.fr ∧ t.params = s.params ∧
      t.chan = { s.chan with tx := s.chan.tx ++ encode s.params i } :=
  ⟨_, (step_command hin hi).trans (exec_command_of_not_baud _ (Instr.isCommand_of_wellFormed hi) hbaud),
    rfl, rfl, rfl, rfl⟩

/-- Commands other than BAUD take one step each and queue their encodings in order, at an unchanged rate. -/
theorem steps_commands {cs : List Instr} {rest : List Input} {s : State}
    (hcs : ∀ i ∈ cs, i.isWellFormedCommand = true ∧ ∀ k, i ≠ .baud k)
    (hin : s.inputs = cs.map Input.command ++ rest) :
    ∃ t, steps cs.length s = .next t ∧ t.inputs = rest ∧ t.fr = s.fr ∧ t.params = s.params ∧
      t.chan = { s.chan with tx := s.chan.tx ++ (cs.map (encode s.params)).flatten } := by
  induction cs generalizing s with
  | nil => exact ⟨s, rfl, hin, rfl, rfl, by simp⟩
  | cons i cs ih =>
    obtain ⟨⟨hi, hbaud⟩, hcs⟩ := List.forall_mem_cons.mp hcs
    obtain ⟨u, hstep, hin', hfr, hparams, hchan⟩ := step_command_of_not_baud hin hi hbaud
    obtain ⟨t, hrun, hinputs, hfr', hparams', hchan'⟩ := ih hcs hin'
    refine ⟨t, (steps_succ _ hstep).trans hrun, hinputs, hfr'.trans hfr, hparams'.trans hparams, ?_⟩
    simp [hchan', hchan, hparams]

/-- BAUD writes its two bytes and drains at the old rate; nothing is queued when the channel is open again (R97). -/
theorem step_baud {code : Byte} {rest : List Input} {s : State} (hin : s.inputs = .command (.baud code) :: rest) :
    ∃ t, step s = .next t ∧ t.chan.tx = [] ∧ t.inputs = rest ∧ t.fr = s.fr ∧
      t.chan.wire = s.chan.wire ++ (s.chan.tx ++ [s.params.op.baud, code]).map fun b => (s.chan.rate, b) :=
  ⟨_, step_command hin rfl, rfl, rfl, rfl, rfl⟩

/-! ### Runs of `feed` inputs -/

/-- FR does the same with one byte in two states that agree on it. -/
theorem State.TookByte.sameFramer {s s' t t' : State} {b : Byte} (h : s.TookByte t b) (hsame : s.SameFramer s')
    (h' : s'.TookByte t' b) : t.SameFramer t' where
  fr := by rw [h.fr, h'.fr, hsame.fr, hsame.params]
  cells := by rw [h.cells, h'.cells, hsame.cells]
  params := by rw [h.params, h'.params, hsame.params]

/-- A `feed` input with a byte waiting takes that byte, and reports the event of R126's step. -/
theorem step_feed_next {s : State} {b : Byte} {rx : List Byte} {rest : List Input}
    (hin : s.inputs = .feed :: rest) (hrx : s.chan.rx = b :: rx) :
    ∃ t, step s = .next t ∧ s.TookByte t b ∧ t.chan = { s.chan with rx := rx } ∧ t.inputs = rest ∧
      t.event = some (framerStep s.params.cap s.fr b).2 :=
  ⟨_, (step_feed hin hrx).trans (feedByte_eq_framerStep b _), ⟨rfl, rfl, rfl⟩, rfl, rfl, rfl⟩

/-- FEED and the step relation in lockstep: `s` takes the bytes by FEED, `s'` by `feed` inputs from its queue, and
both have the same FR all along. -/
theorem feed_lockstep {bs rest : List Byte} {more : List Input} {s s' : State} (hsame : s.SameFramer s')
    (hrx : s'.chan.rx = bs ++ rest) (hin : s'.inputs = List.replicate bs.length Input.feed ++ more) :
    ∃ es u t, feed bs s = some (es, u) ∧ es.length = bs.length ∧ steps bs.length s' = .next t ∧ u.SameFramer t ∧
      t.chan = { s'.chan with rx := rest } ∧ t.inputs = more ∧ t.event = es.getLast?.or s'.event := by
  induction bs generalizing s s' with
  | nil => exact ⟨[], s, s', rfl, rfl, rfl, hsame, by simp [← show _ = rest from hrx], hin, rfl⟩
  | cons b bs ih =>
    have hfeed := feedByte_eq_framerStep b s
    obtain ⟨v, hstep, hbyte, hchan, hin', hevent⟩ := step_feed_next hin hrx
    obtain ⟨es, u, t, hes, hlen, hrun, htu, hchan', hinputs, hevent'⟩ :=
      ih ((feedByte_tookByte hfeed).sameFramer hsame hbyte) (congrArg Channel.rx hchan) hin'
    refine ⟨(framerStep s.params.cap s.fr b).2 :: es, u, t, ?_, congrArg (· + 1) hlen,
      (steps_succ _ hstep).trans hrun, htu, by rw [hchan', hchan], hinputs, ?_⟩
    · rw [feed_cons hfeed rfl, hes]
      rfl
    · rw [hevent', hevent, List.getLast?_cons, hsame.fr, hsame.params]
      cases es.getLast? <;> rfl

/-! ### The statements -/

/-- Settles O28: FEED and the `feed` inputs run in lockstep, and with a byte fed there is a last event. -/
theorem feedInputsTakeQueueInOrder : Obligations.FeedInputsTakeQueueInOrder := by
  intro bs rest more s hrx hin
  obtain ⟨es, u, t, hes, hlen, hrun, hsame, hchan, hinputs, hevent⟩ := feed_lockstep (.refl s) hrx hin
  refine ⟨es, u, t, hes, hrun, hsame.fr, hchan, hinputs, fun hbs => ?_⟩
  have hne : es ≠ [] := fun h => hbs (List.length_eq_zero_iff.mp (by simp [← hlen, h]))
  rw [hevent, List.getLast?_eq_some_getLast hne]
  rfl

/-- Settles O40: only a command adds to the outgoing bytes, and no input takes any away but an early opening. -/
theorem transmitSideKeepsEveryByte : Obligations.TransmitSideKeepsEveryByte := by
  intro s t h hopen
  change t.chan.outgoing = s.chan.outgoing ++ _
  split
  next i rest hin =>
    rw [step_cons hin] at h
    obtain ⟨hi, hexec⟩ := runInput_transmitEffect h
    exact (outgoing_exec_command hi hexec :)
  next hcommand =>
    rw [List.append_nil]
    cases hin : s.inputs with
    | nil => cases (step_nil hin).symm.trans h; rfl
    | cons i rest =>
      rw [step_cons hin] at h
      exact (runInput_transmitEffect h).outgoing_of_not_command (fun c hc => hcommand c rest (hc ▸ hin))
        fun r hr => hopen r rest (hr ▸ hin)

/-- Settles O41: the commands queue their bytes behind those waiting, and BAUD drains them all. -/
theorem commandsThenBaudAllSentAtOldRate : Obligations.CommandsThenBaudAllSentAtOldRate := by
  intro cs code rest s hcs hin
  obtain ⟨u, hrun, hu, hfr, hparams, hchan⟩ := steps_commands hcs hin
  obtain ⟨t, hstep, htx, ht, hfr', hwire⟩ := step_baud hu
  refine ⟨t, ?_, htx, ht, hfr'.trans hfr, ?_⟩
  · rw [steps_add _ _ hrun, steps_succ _ hstep, steps_zero]
  · rw [hwire, hchan, hparams]

/-- Settles O12: the stops of a step are those of its input. -/
theorem stepStopsOnlyThere : Obligations.StepStopsOnlyThere :=
  fun _ => ⟨fun _ => step_fault_iff, fun _ => step_refused_iff⟩

/-- Settles O9: `feed` hands FR the oldest waiting byte, `command` hands CE the command. -/
theorem stepRunsDecodedInstruction : Obligations.StepRunsDecodedInstruction :=
  ⟨fun _ _ _ _ => step_feed, fun _ _ _ => step_command⟩

/-- Settles O58: each input is one operation of the channel. -/
theorem channelMovesBytesInOrder : Obligations.ChannelMovesBytesInOrder := by
  refine fun s rest => ⟨fun b hin => step_cons hin, fun b tx hin htx => ?_⟩
  rw [step_cons hin]
  exact congrArg Host.Outcome.next (State.chanTransmit_cons htx)

/-- Settles O60: the read is bounds-checked against CAP. -/
theorem consumerReadsCell : Obligations.ConsumerReadsCell := by
  refine fun s i rest hin => ⟨fun hi => ?_, fun hi => ?_⟩ <;> rw [step_cons hin]
  · exact runReadCell_of_lt hi
  · exact runReadCell_of_ge hi

end Sys2Proof.Machine
end

section
/-!
PROOFS. What CE's operands, the encodings and the frame checksum keep (30_encoding.md): the split of a signed operand
read back, the opcode name and the payload of each command, the decoder and the stream reader on them; and the
statements of that file, each a short use of these.
-/

namespace Sys2Proof

/-! ### The split of a signed operand -/

@[simp] theorem hi8_append_lo8 (w : Word16) : (hi8 w ++ lo8 w : BitVec 16) = w := by
  rw [← BitVec.toNat_inj, toNat_append_bytes, ← toNat_hi8_lo8]

theorem u16_toNat {v : Int} (h : isS16 v = true) : ((u16 v).toNat : Int) = if 0 ≤ v then v else v + 65536 := by
  obtain ⟨hlow, hhigh⟩ := (isS16_iff v).mp h
  unfold u16
  split <;> rw [BitVec.toNat_ofNat] <;> omega

/-- The signed reading undoes `u16` on the operands it is meant for. -/
theorem toInt_u16 {v : Int} (h : isS16 v = true) : (u16 v).toInt = v := by
  obtain ⟨hlow, hhigh⟩ := (isS16_iff v).mp h
  have hnat := u16_toNat h
  rw [BitVec.toInt_eq_toNat_cond]
  split at hnat <;> split <;> omega

theorem s16OfBytes_u16 {v : Int} (h : isS16 v = true) : s16OfBytes (hi8 (u16 v)) (lo8 (u16 v)) = v := by
  rw [s16OfBytes, hi8_append_lo8, toInt_u16 h]

/-! ### The day mask of a week, the note count -/

/-- A mask of seven days leaves bit 7 at 0 and gives the days back (R56b). -/
theorem dayMask_of_week {en : List Bool} (h : en.length = 7) :
    (dayMask en).getLsbD 7 = false ∧ daysOfMask (dayMask en) = en := by
  match en, h with
  | [a, b, c, d, e, f, g], _ => exact ⟨(dayMask_bits a b c d e f g).2, daysOfMask_dayMask a b c d e f g⟩

/-- Half a note does not count (R90, D14). -/
theorem noteCount_append_odd {d : List Byte} (h : d.length % 2 = 0) (x : Byte) :
    noteCount (d ++ [x]) = noteCount d := by
  have hhalf : (d.length + 1) / 2 = d.length / 2 := by omega
  simp [noteCount, hhalf]

/-! ### A command's opcode name and payload -/

/-- The opcode parameter whose byte a command sends first (R54); none for `MODE op`, which sends a byte of its own,
and for a received byte. -/
def Instr.opName? : Instr → Option OpName
  | .frHdr | .frSkip _ | .frCount _ | .frData _ | .frChk _ | .mode _ => none
  | .start => some .start
  | .safe => some .safe
  | .full => some .full
  | .drive _ _ => some .drive
  | .driveDirect _ _ => some .driveDirect
  | .leds _ _ _ => some .leds
  | .drivers _ => some .drivers
  | .pwmDrivers _ _ _ => some .pwmDrivers
  | .song _ _ => some .song
  | .playSong _ => some .play
  | .streamStart _ => some .stream
  | .streamPause | .streamResume => some .streamCtl
  | .setClock _ _ _ => some .setClock
  | .setSchedule _ _ _ => some .schedule
  | .baud _ => some .baud
  | .query _ => some .sensors
  | .queryList _ => some .queryList
  | .getScript => some .showScript

/-- The bytes of a command after its opcode (R53). -/
def Instr.payload (p : Params) (i : Instr) : List Byte := (encode p i).tail

theorem Instr.command_cases {i : Instr} (h : i.isCommand = true) :
    (∃ op, i = .mode op) ∨ ∃ n, i.opName? = some n := by
  cases i <;> simp_all [Instr.isCommand, Instr.opName?]

/-- A command with an opcode name is the byte of that name and its payload (R53, R54). -/
theorem encode_of_opName? {i : Instr} {n : OpName} (h : i.opName? = some n) (p : Params) :
    encode p i = p.op.val n :: i.payload p := by
  cases i <;> cases h <;> rfl

/-- R54 read from right to left: the payload of a well-formed command, under its opcode name, is that command. -/
theorem decodePayload_payload {p : Params} {i : Instr} {n : OpName} (hargs : p.pauseArg ≠ p.resumeArg)
    (hi : i.wellFormed = true) (h : i.opName? = some n) : decodePayload p n (i.payload p) = some i := by
  cases i <;> cases h
  case drive | driveDirect =>
    simp only [Instr.wellFormed, Bool.and_eq_true] at hi
    obtain ⟨h1, h2⟩ := hi
    simp [decodePayload, Instr.payload, encode, s16Bytes, payloadWords, s16OfBytes_u16 h1, s16OfBytes_u16 h2]
  case song => simp [decodePayload, Instr.payload, encode, payloadSong]
  case streamStart | queryList => simp [decodePayload, Instr.payload, encode, payloadIds]
  case streamPause | streamResume => simp [decodePayload, Instr.payload, encode, payloadStreamCtl, hargs.symm]
  case setSchedule en hh mm =>
    simp only [Instr.wellFormed, Bool.and_eq_true, beq_iff_eq] at hi
    obtain ⟨⟨hen, hhh⟩, hmm⟩ := hi
    obtain ⟨hbit, hdays⟩ := dayMask_of_week hen
    have hlen := hhh.trans hmm.symm
    have htimes : (timeBytes hh mm).length = 14 := by rw [timeBytes_length hh mm hlen, hhh]
    change payloadSchedule (dayMask en :: timeBytes hh mm) = _
    rw [payloadSchedule, if_pos ⟨htimes, hbit⟩, hdays, hoursOf_timeBytes hh mm hlen, minutesOf_timeBytes hh mm hlen]
  all_goals rfl

/-! ### One byte string -/

/-- `MODE op` is read last: its byte is the opcode-only command of that opcode, where there is one (R84). -/
theorem decodeCommand_singleton (p : Params) (op : Byte) :
    decodeCommand p [op] = .ok ((Instr.mode op).canonical p) := by
  cases hname : p.op.name? op with
  | none => simp [decodeCommand, Instr.canonical, hname]
  | some n => cases n <;> simp [decodeCommand, Instr.canonical, hname] <;> rfl

theorem canonical_of_opName? {i : Instr} {n : OpName} (h : i.opName? = some n) (p : Params) : i.canonical p = i := by
  cases i <;> cases h <;> rfl

/-- A byte string that decodes is a named opcode with a payload of its row, or one byte read as MODE. -/
theorem decodeCommand_ok {p : Params} {bs : List Byte} {i : Instr} (h : decodeCommand p bs = .ok i) :
    (∃ op n payload, bs = op :: payload ∧ p.op.name? op = some n ∧ decodePayload p n payload = some i) ∨
    ∃ op, bs = [op] ∧ i = .mode op := by
  cases bs with
  | nil => cases h
  | cons op payload =>
    have hmode {e : DecodeError} (h : (if payload = [] then .ok (.mode op) else .error e) = Except.ok i) :
        ∃ op', op :: payload = [op'] ∧ i = .mode op' := by
      by_cases hnil : payload = []
      · rw [if_pos hnil] at h
        cases h
        exact ⟨op, by rw [hnil], rfl⟩
      · rw [if_neg hnil] at h
        cases h
    simp only [decodeCommand] at h
    split at h
    next n hname =>
      split at h
      next j hj => cases h; exact .inl ⟨op, n, payload, rfl, hname, hj⟩
      next => exact .inr (hmode h)
    next => exact .inr (hmode h)

/-- Settles O43: the opcode gives its name and the payload its command; MODE is read last. -/
theorem decodeOfEncode : Obligations.DecodeOfEncode := by
  intro p i ⟨hop, hargs⟩ hi
  obtain ⟨hcommand, hwf⟩ := Bool.and_eq_true_iff.mp hi
  rcases Instr.command_cases hcommand with ⟨op, rfl⟩ | ⟨n, hn⟩
  · exact decodeCommand_singleton p op
  · rw [encode_of_opName? hn, canonical_of_opName? hn]
    exact decodeCommand_cons hop (decodePayload_payload hargs hwf hn)

/-- Settles O44: a payload that decodes is the rest of its command's encoding, and MODE is one byte. -/
theorem encodeOfDecode : Obligations.EncodeOfDecode := by
  intro p bs i h
  rcases decodeCommand_ok h with ⟨op, n, payload, rfl, hname, hpayload⟩ | ⟨op, rfl, rfl⟩
  · obtain ⟨hcommand, hwf, hencode⟩ := decodePayload_some hpayload
    exact ⟨Bool.and_eq_true_iff.mpr ⟨hcommand, hwf⟩, by rw [hencode, Opcodes.val_of_name? hname]⟩
  · exact ⟨rfl, rfl⟩

/-! ### The transmit stream -/

/-- A readable command announces its own length, whatever follows it (R60). -/
theorem commandLength_of_readable {p : Params} {i : Instr} {n : OpName} (hop : p.op.distinct)
    (hi : i.wellFormed = true) (hread : i.lengthReadable p) (h : i.opName? = some n) (rest : List Byte) :
    commandLength p (p.op.val n) (i.payload p ++ rest) = (i.payload p).length + 1 := by
  cases i <;> cases h <;> simp only [commandLength, Opcodes.name?_val hop]
  case song k d =>
    obtain ⟨heven, hfits⟩ := hread
    simp [Instr.payload, encode]
    omega
  case streamStart ids | queryList ids =>
    have hfits : ids.length < 256 := hread
    simp [Instr.payload, encode]
    omega
  case setSchedule en hh mm =>
    exact (Laws.EncodedLength.setSchedule en hh mm p hi).symm
  all_goals rfl

/-- R60's reader on an encoding followed by any bytes. -/
theorem decodeStream_encode {p : Params} {i : Instr} (hp : p.unambiguous) (hi : i.isWellFormedCommand = true)
    (hread : i.lengthReadable p) (rest : List Byte) : decodeStream p (encode p i ++ rest) = .ok (i, rest) := by
  obtain ⟨hop, hargs⟩ := hp
  obtain ⟨hcommand, hwf⟩ := Bool.and_eq_true_iff.mp hi
  rcases Instr.command_cases hcommand with ⟨op, rfl⟩ | ⟨n, hn⟩
  · have hname : p.op.name? op = none := hread
    exact decodeStream_append (bs := []) (by simp [commandLength, hname]) (by simp [decodeCommand, hname])
  · rw [encode_of_opName? hn]
    exact decodeStream_append (commandLength_of_readable hop hwf hread hn rest)
      (decodeCommand_cons hop (decodePayload_payload hargs hwf hn))

/-- The last byte of odd song data lies behind the encoding of the even data before it (R90b, R220). -/
theorem encode_song_odd (p : Params) (k x : Byte) {d : List Byte} (h : d.length % 2 = 0) :
    encode p (.song k (d ++ [x])) = encode p (.song k d) ++ [x] := by
  simp [encode, noteCount_append_odd h]

/-- Settles O45: a readable command announces its length; odd song data is even data and one byte more. -/
theorem streamReaderFindsCommand : Obligations.StreamReaderFindsCommand := by
  refine fun p rest hp => ⟨fun i hi hread => decodeStream_encode hp hi hread rest, fun k x d heven hfits => ?_⟩
  rw [encode_song_odd p k x heven, List.append_assoc]
  exact decodeStream_encode (i := .song k d) hp rfl ⟨heven, hfits⟩ _

/-! ### The receive side -/

/-- The row of R52 that a byte gets is selected by the position and has that byte. -/
theorem decodeFr_spec (p : Params) (st : ParseState) (b : Byte) :
    (decodeFr st b).wellFormed = true ∧ (decodeFr st b).selectedIn = some st ∧ encode p (decodeFr st b) = [b] := by
  cases st with
  | idle => by_cases hb : b = header <;> simp [decodeFr, hb, Instr.wellFormed, Instr.selectedIn, encode]
  | waitCount | waitBytes | waitChecksum => exact ⟨rfl, rfl, rfl⟩

/-- An instruction of FR has one byte, which decodes to it in the position that selects it (R52). -/
theorem decodeFr_of_selectedIn {i : Instr} {st : ParseState} (hi : i.wellFormed = true) (h : i.selectedIn = some st)
    (p : Params) : ∃ b, encode p i = [b] ∧ decodeFr st b = i := by
  cases i <;> cases h
  case frHdr => exact ⟨header, rfl, rfl⟩
  case frSkip b => exact ⟨b, rfl, if_neg (by simpa [Instr.wellFormed] using hi)⟩
  all_goals exact ⟨_, rfl, rfl⟩

theorem Instr.selectedIn_of_isCommand {i : Instr} (h : i.isCommand = true) : i.selectedIn = none := by
  cases i <;> cases h <;> rfl

/-- Settles O7: the row exists by `decodeFr_spec`, and there is no other by `decodeFr_of_selectedIn`. -/
theorem decodeMapIsExact : Obligations.DecodeMapIsExact := by
  refine fun p st b i => ⟨fun h => h ▸ decodeFr_spec p st b, fun ⟨hwf, hsel, hb⟩ => ?_⟩
  obtain ⟨c, hc, hdecode⟩ := decodeFr_of_selectedIn hwf hsel p
  cases hb.symm.trans hc
  exact hdecode

/-! ### The other statements about encodings -/

/-- Settles O42: a word is its two bytes, and the signed reading undoes `u16`. -/
theorem signedSplitExact : Obligations.SignedSplitExact :=
  fun _ h => ⟨u16_toNat h, toNat_hi8_lo8 _, s16OfBytes_u16 h⟩

/-- Settles O46: a command other than MODE has an opcode name, whose byte it sends first. -/
theorem onlyModeSendsOtherOpcodes : Obligations.OnlyModeSendsOtherOpcodes := by
  intro p i hi hmode
  rcases Instr.command_cases hi with ⟨op, rfl⟩ | ⟨n, hn⟩
  · exact absurd rfl (hmode op)
  · exact ⟨n, by rw [encode_of_opName? hn]; rfl⟩

theorem frameChecksum_toNat (p : List Byte) :
    (frameChecksum p).toNat = (256 - (19 + p.length + byteSum p) % 256) % 256 := by
  simp [frameChecksum]

/-- Settles O47: both sides give the byte's value modulo 256. -/
theorem frameChecksumUnique : Obligations.FrameChecksumUnique := by
  intro p c _
  have hc := c.isLt
  rw [← BitVec.toNat_inj, frameChecksum_toNat]
  omega

/-- Settles O11: each word evaluates. -/
theorem writtenOutWordsDecode : Obligations.WrittenOutWordsDecode := by
  unfold Obligations.WrittenOutWordsDecode
  decide

end Sys2Proof

namespace Sys2Proof.Machine

open Sys2Proof

/-! ### A placed instruction -/

theorem State.place_of_isCommand {i : Instr} (h : i.isCommand = true) (s : State) :
    s.place i = { s with inputs := .command i :: s.inputs } := by
  simp [State.place, Instr.selectedIn_of_isCommand h]

theorem State.place_of_selectedIn {i : Instr} {st : ParseState} (h : i.selectedIn = some st) (s : State) :
    s.place i =
      { s with
        fr := { s.fr with st := st }
        chan := { s.chan with rx := encode s.params i ++ s.chan.rx }
        inputs := .feed :: s.inputs } := by
  simp [State.place, h]

/-- Settles O10: a placed command is the next input; a placed byte is the oldest, and decodes to its instruction. -/
theorem placedInstructionRunsNext : Obligations.PlacedInstructionRunsNext := by
  refine fun s i hwf => ⟨fun hi => ?_, fun st hst => ?_⟩
  · rw [State.place_of_isCommand hi]
    exact step_command rfl (Bool.and_eq_true_iff.mpr ⟨hi, hwf⟩)
  · obtain ⟨b, hb, hdecode⟩ := decodeFr_of_selectedIn hwf hst s.params
    rw [State.place_of_selectedIn hst, hb]
    refine (step_feed rfl rfl).trans ?_
    rw [feedByte, hdecode]
    rfl

end Sys2Proof.Machine
end

section
/-!
PROOFS. What CE's commands write (41_command_encoder.md): the operand bytes where a computation stands behind them, the
one rule that a command other than BAUD appends its encoding, what BAUD and the other inputs do to the rate; and the
statements of that file, each a short use of these.
-/

namespace Sys2Proof

/-! ### The computed operand bytes -/

/-- A signed operand's two bytes, read high byte first, are its two's-complement pattern (R55). -/
theorem hi8_lo8_u16 {v : Int} (h : isS16 v = true) :
    (256 * (hi8 (u16 v)).toNat + (lo8 (u16 v)).toNat : Int) = if 0 ≤ v then v else v + 65536 := by
  rw [← u16_toNat h, toNat_hi8_lo8]
  push_cast
  rfl

/-- Day `i` of a week stands in bit `i` of its mask (R56b). -/
theorem dayMask_getLsbD {en : List Bool} (h : en.length = 7) {i : Nat} (hi : i < 7) :
    some ((dayMask en).getLsbD i) = en[i]? := by
  match en, h with
  | [a, b, c, d, e, f, g], _ => exact (dayMask_bits a b c d e f g).1 i hi

/-- Hour and minute of day `i` stand side by side, the hour at the even place (R96). -/
theorem timeBytes_getElem? : ∀ {hh mm : List Byte}, hh.length = mm.length → ∀ i : Nat,
    (timeBytes hh mm)[2 * i]? = hh[i]? ∧ (timeBytes hh mm)[2 * i + 1]? = mm[i]?
  | [], [], _, _ => ⟨rfl, rfl⟩
  | _ :: _, _ :: _, _, 0 => ⟨rfl, rfl⟩
  | _ :: _, _ :: _, h, i + 1 => timeBytes_getElem? (Nat.succ.inj h) i

theorem Params.rateOf_of_lookupByte {p : Params} {code : Byte} {r : Nat} (h : lookupByte p.rate code = some r) :
    p.rateOf code = r := by
  rw [Params.rateOf, h]

end Sys2Proof

namespace Sys2Proof.Machine

open Sys2Proof

/-! ### What one command does -/

/-- A command other than BAUD appends its bytes to the transmit side and leaves every other field (R80). -/
theorem exec_appends {i : Instr} {bs : List Byte} (s : State) (hi : i.isCommand = true) (hbaud : ∀ k, i ≠ .baud k)
    (hbytes : encode s.params i = bs) :
    exec i s = .next { s with chan := { s.chan with tx := s.chan.tx ++ bs } } :=
  hbytes ▸ exec_command_of_not_baud s hi hbaud

/-- BAUD writes its two bytes, drains, and reopens at the mapped rate (R97). -/
theorem exec_baud (code : Byte) (s : State) :
    exec (.baud code) s =
      .next ((s.chanWrite [s.params.op.baud, code]).chanDrain.chanReopen (s.params.rateOf code)) := rfl

/-! ### What changes the rate -/

theorem State.rate_of_transmitSide {s t : State} (h : t.transmitSide = s.transmitSide) :
    t.chan.rate = s.chan.rate :=
  show t.transmitSide.rate = s.transmitSide.rate by rw [h]

/-- A command keeps the rate, or is BAUD. -/
theorem rate_exec_command {c : Instr} {s t : State} (hc : c.isCommand = true) (h : exec c s = .next t) :
    t.chan.rate = s.chan.rate ∨ ∃ code, c = .baud code := by
  rcases exec_command_cases s hc with hx | ⟨code, hbaud, -⟩
  · cases hx.symm.trans h
    exact .inl (s.chanWrite_rate _)
  · exact .inr ⟨code, hbaud⟩

/-- An input keeps the rate, or is BAUD or an opening of the channel. -/
theorem Input.TransmitEffect.rate_cases {i : Input} {s t : State} (h : i.TransmitEffect s t) :
    t.chan.rate = s.chan.rate ∨ (∃ code, i = .command (.baud code)) ∨ ∃ r, i = .openChannel r := by
  cases i with
  | command c =>
    obtain ⟨hc, hexec⟩ := h
    refine (rate_exec_command hc hexec).imp_right fun ⟨code, hbaud⟩ => .inl ⟨code, ?_⟩
    rw [hbaud]
  | transmit => cases h; exact .inl s.chanTransmit_rate
  | openChannel r => exact .inr (.inr ⟨r, rfl⟩)
  | _ => exact .inl (State.rate_of_transmitSide h)

/-! ### The statements -/

/-- Settles O37: `exec_appends` for the encoding itself. -/
theorem everyCommandWritesItsEncoding : Obligations.EveryCommandWritesItsEncoding :=
  fun s _ hi hbaud => exec_appends s (Instr.isCommand_of_wellFormed hi) hbaud rfl

/-- Settles O30: the four bytes are those of the operands' 16-bit patterns. -/
theorem motionCommandsWrite : Obligations.MotionCommandsWrite :=
  fun s v r hv hr => ⟨hi8 (u16 v), lo8 (u16 v), hi8 (u16 r), lo8 (u16 r), hi8_lo8_u16 hv, hi8_lo8_u16 hr,
    exec_appends s rfl nofun rfl, exec_appends s rfl nofun rfl⟩

/-- Settles O34: bit `i` of the mask and the bytes `2 i` and `2 i + 1` of the times are those of day `i`. -/
theorem scheduleCommandWrites : Obligations.ScheduleCommandWrites := by
  intro s en hh mm hen hhh hmm
  have hlen : hh.length = mm.length := hhh.trans hmm.symm
  refine ⟨dayMask en, timeBytes hh mm, exec_appends s rfl nofun rfl, fun i hi => dayMask_getLsbD hen hi,
    (dayMask_of_week hen).1, ?_, fun i _ => timeBytes_getElem? hlen i⟩
  rw [timeBytes_length hh mm hlen, hhh]

/-- Settles O39: the rate is among what `Input.TransmitEffect` follows. -/
theorem onlyBaudChangesRate : Obligations.OnlyBaudChangesRate := by
  intro s t h hrate
  cases hin : s.inputs with
  | nil =>
    cases (step_nil hin).symm.trans h
    exact absurd rfl hrate
  | cons i rest =>
    rw [step_cons hin] at h
    rcases (runInput_transmitEffect h).rate_cases with hsame | ⟨code, rfl⟩ | ⟨r, rfl⟩
    · exact absurd hsame hrate
    · exact .inl ⟨code, rest, rfl⟩
    · exact .inr ⟨r, rest, rfl⟩

/-- Settles O29: each encoding is one byte. -/
theorem modeCommandsWrite : Obligations.ModeCommandsWrite :=
  fun s _ => ⟨exec_appends s rfl nofun rfl, exec_appends s rfl nofun rfl, exec_appends s rfl nofun rfl,
    exec_appends s rfl nofun rfl⟩

/-- Settles O31: each encoding is the opcode and the operands. -/
theorem byteOperandCommandsWrite : Obligations.ByteOperandCommandsWrite :=
  fun s _ _ _ => ⟨exec_appends s rfl nofun rfl, exec_appends s rfl nofun rfl, exec_appends s rfl nofun rfl,
    exec_appends s rfl nofun rfl⟩

/-- Settles O32: the count byte is `noteCount`. -/
theorem songCommandsWrite : Obligations.SongCommandsWrite :=
  fun s _ d => ⟨⟨noteCount d, noteCount_toNat d, exec_appends s rfl nofun rfl⟩, exec_appends s rfl nofun rfl⟩

/-- Settles O33: the count byte is `countByte`. -/
theorem streamCommandsWrite : Obligations.StreamCommandsWrite :=
  fun s ids => ⟨⟨countByte ids, countByte_toNat ids, exec_appends s rfl nofun rfl⟩, exec_appends s rfl nofun rfl,
    exec_appends s rfl nofun rfl⟩

/-- Settles O36: the count byte of QUERY_LIST is `countByte`. -/
theorem requestCommandsWrite : Obligations.RequestCommandsWrite :=
  fun s _ ids => ⟨exec_appends s rfl nofun rfl, ⟨countByte ids, countByte_toNat ids, exec_appends s rfl nofun rfl⟩,
    exec_appends s rfl nofun rfl⟩

/-- Settles O35: the queue is drained before the reopening, so it is empty after it. -/
theorem baudDrainsThenReopens : Obligations.BaudDrainsThenReopens := by
  refine fun s code => ⟨_, exec_baud code s, ?_, ?_, fun r hr => ?_, rfl⟩
  · simp
  · simp
  · rw [State.chanReopen_rate, Params.rateOf_of_lookupByte hr]

end Sys2Proof.Machine
end

section
/-!
PROOFS. What FR does with a sequence of bytes (42_stream_framer.md): FEED is a fold of R126's step on FR alone
(`feed_eq`); one equation of that step per parse position; what is known of FR in the middle of a frame
(`Framer.MidFrame`), where a frame fed from Idle ends (`Framer.run_frame`), and how FR came to be where it is
(`Framer.traced_after`); and the statements of that file, each a short use of these.
-/

namespace Sys2Proof.Machine

open Sys2Proof

/-! ### FEED as a fold on FR -/

/-- FR after the bytes `bs`, by R126's step. -/
def Framer.after (cap : Nat) (f : Framer) (bs : List Byte) : Framer :=
  bs.foldl (fun g b => (framerStep cap g b).1) f

/-- The events of the bytes `bs`, by R126's step. -/
def Framer.events (cap : Nat) (f : Framer) : List Byte → List Event
  | [] => []
  | b :: bs => (framerStep cap f b).2 :: Framer.events cap (framerStep cap f b).1 bs

@[simp] theorem Framer.after_nil (cap : Nat) (f : Framer) : f.after cap [] = f := rfl

@[simp] theorem Framer.after_cons (cap : Nat) (f : Framer) (b : Byte) (bs : List Byte) :
    f.after cap (b :: bs) = (framerStep cap f b).1.after cap bs := rfl

@[simp] theorem Framer.after_append (cap : Nat) (f : Framer) (xs ys : List Byte) :
    f.after cap (xs ++ ys) = (f.after cap xs).after cap ys := List.foldl_append

@[simp] theorem Framer.events_nil (cap : Nat) (f : Framer) : f.events cap [] = [] := rfl

@[simp] theorem Framer.events_cons (cap : Nat) (f : Framer) (b : Byte) (bs : List Byte) :
    f.events cap (b :: bs) = (framerStep cap f b).2 :: (framerStep cap f b).1.events cap bs := rfl

@[simp] theorem Framer.events_append (cap : Nat) (f : Framer) (xs ys : List Byte) :
    f.events cap (xs ++ ys) = f.events cap xs ++ (f.after cap xs).events cap ys := by
  induction xs generalizing f with
  | nil => rfl
  | cons x xs ih => simp [ih]

@[simp] theorem Framer.events_length (cap : Nat) (f : Framer) (bs : List Byte) :
    (f.events cap bs).length = bs.length := by
  induction bs generalizing f with
  | nil => rfl
  | cons b bs ih => simp [ih]

/-- The state FEED reaches: FR's own, and the last event in the port. -/
def State.afterFeed (s : State) (bs : List Byte) : State :=
  { s with
    fr := s.fr.after s.params.cap bs
    event := (s.fr.events s.params.cap bs).getLast?.or s.event }

/-- FEED (R127) is R126's step, byte after byte, on FR alone. -/
theorem feed_eq (bs : List Byte) (s : State) :
    feed bs s = some (s.fr.events s.params.cap bs, s.afterFeed bs) := by
  induction bs generalizing s with
  | nil => rfl
  | cons b bs ih =>
    rw [feed_cons (feedByte_eq_framerStep b s) rfl, ih]
    simp [State.afterFeed, List.getLast?_cons]

theorem feed_of_events {bs : List Byte} {s : State} {es : List Event} (h : s.fr.events s.params.cap bs = es) :
    ∃ t, feed bs s = some (es, t) :=
  ⟨s.afterFeed bs, h ▸ feed_eq bs s⟩

theorem State.afterFeed_append (s : State) (xs ys : List Byte) :
    s.afterFeed (xs ++ ys) = (s.afterFeed xs).afterFeed ys := by
  simp [State.afterFeed, List.getLast?_append, Option.or_assoc]

/-! ### R126's step, one equation per parse position -/

theorem framerStep_header {cap : Nat} {f : Framer} (h : f.st = .idle) :
    framerStep cap f header = ({ f with st := .waitCount }, .none) := by
  simp [framerStep, h]

theorem ne_header_of_toNat {b : Byte} (h : b.toNat ≠ 19) : b ≠ header := by
  rintro rfl
  exact h rfl

theorem framerStep_noise {cap : Nat} {f : Framer} {b : Byte} (h : f.st = .idle) (hb : b ≠ header) :
    framerStep cap f b = (f, .discard b) := by
  simp [framerStep, h, hb]

theorem framerStep_count {cap : Nat} {f : Framer} (h : f.st = .waitCount) (n : Byte) :
    framerStep cap f n =
      ({ f with
          st := if n = 0#8 then .waitChecksum else .waitBytes
          len := n
          cnt := 0#8
          sum := add8 header n }, .none) := by
  by_cases hn : n = 0#8 <;> simp [framerStep, h, hn]

theorem framerStep_data {cap : Nat} {f : Framer} (h : f.st = .waitBytes) (b : Byte) :
    framerStep cap f b =
      ({ f with
          st := if f.cnt + 1#8 = f.len then .waitChecksum else .waitBytes
          cnt := f.cnt + 1#8
          sum := add8 f.sum b
          buf := f.buf.store cap f.cnt.toNat b }, .none) := by
  by_cases hlast : f.cnt + 1#8 = f.len <;> simp [framerStep, h, hlast, Memory.store]

theorem framerStep_checksum {cap : Nat} {f : Framer} (h : f.st = .waitChecksum) (c : Byte) :
    framerStep cap f c =
      ({ f with st := .idle, sum := add8 f.sum c }, if add8 f.sum c = 0#8 then .accept f.len else .reject) := by
  by_cases hsum : add8 f.sum c = 0#8 <;> simp [framerStep, h, hsum]

/-- The same registers over another buffer. -/
def Framer.withBuf (f : Framer) (m : Memory) : Framer := { f with buf := m }

/-- The buffer is written and never read: over other cells and with another CAP a step gives the same event and the
same registers (R130). -/
theorem framerStep_withBuf (cap cap' : Nat) (f : Framer) (m : Memory) (b : Byte) :
    ∃ m', framerStep cap' (f.withBuf m) b = ((framerStep cap f b).1.withBuf m', (framerStep cap f b).2) := by
  cases hst : f.st with
  | idle =>
    by_cases hb : b = header
    · subst hb
      exact ⟨m, by rw [framerStep_header hst, framerStep_header (f := f.withBuf m) hst]; rfl⟩
    · exact ⟨m, by rw [framerStep_noise hst hb, framerStep_noise (f := f.withBuf m) hst hb]⟩
  | waitCount => exact ⟨m, by rw [framerStep_count hst, framerStep_count (f := f.withBuf m) hst]; rfl⟩
  | waitBytes =>
    exact ⟨m.store cap' f.cnt.toNat b, by
      rw [framerStep_data hst, framerStep_data (f := f.withBuf m) hst]; rfl⟩
  | waitChecksum => exact ⟨m, by rw [framerStep_checksum hst, framerStep_checksum (f := f.withBuf m) hst]; rfl⟩

theorem Framer.run_withBuf (cap cap' : Nat) (f : Framer) (m : Memory) (bs : List Byte) :
    (f.withBuf m).events cap' bs = f.events cap bs ∧
    ∃ m', (f.withBuf m).after cap' bs = (f.after cap bs).withBuf m' := by
  induction bs generalizing f m with
  | nil => exact ⟨rfl, m, rfl⟩
  | cons b bs ih =>
    obtain ⟨m', hstep⟩ := framerStep_withBuf cap cap' f m b
    simpa [hstep] using ih (framerStep cap f b).1 m'

/-- Noise in Idle (R136): FR stays as it is, and each byte is discarded. -/
theorem Framer.run_noise {cap : Nat} {f : Framer} {noise : List Byte} (h : f.st = .idle)
    (hnoise : ∀ b ∈ noise, b ≠ header) :
    f.events cap noise = noise.map .discard ∧ f.after cap noise = f := by
  induction noise with
  | nil => exact ⟨rfl, rfl⟩
  | cons b noise ih =>
    obtain ⟨hb, hnoise⟩ := List.forall_mem_cons.mp hnoise
    simpa [framerStep_noise h hb] using ih hnoise

/-! ### A frame, forwards -/

/-- FR is in the middle of a frame: the payload bytes `p` are consumed, and `m` more are to come. -/
structure Framer.MidFrame (cap k : Nat) (f : Framer) (p : List Byte) (m : Nat) : Prop where
  consumed : f.consumed cap k p
  len : p.length + m = f.len.toNat
  st : f.st = if m = 0 then .waitChecksum else .waitBytes

/-- The event of a frame's last byte: what the checksum rule says of the frame (R125, R133). -/
def frameEvent (n : Byte) (p : List Byte) (c : Byte) : Event :=
  if (19 + n.toNat + byteSum p + c.toNat) % 256 = 0 then .accept n else .reject

theorem frameEvent_eq_accept {m n c : Byte} {p : List Byte} (h : frameEvent m p c = .accept n) :
    m = n ∧ (19 + m.toNat + byteSum p + c.toNat) % 256 = 0 := by
  unfold frameEvent at h
  split at h
  next hsum => exact ⟨Event.accept.inj h, hsum⟩
  next => cases h

/-- The length byte announces the payload (R123). -/
theorem Framer.midFrame_count {cap k : Nat} {f : Framer} (h : f.st = .waitCount) (n : Byte) :
    (framerStep cap f n).2 = .none ∧ (framerStep cap f n).1.len = n ∧
      (framerStep cap f n).1.MidFrame cap k [] n.toNat := by
  rw [framerStep_count h]
  refine ⟨rfl, rfl, Framer.consumed_nil rfl rfl, Nat.zero_add _, ?_⟩
  simp [← BitVec.toNat_inj]

/-- A payload byte is one of those to come (R124). -/
theorem Framer.MidFrame.data {cap k : Nat} {f : Framer} {p : List Byte} {m : Nat} (h : f.MidFrame cap k p (m + 1))
    (b : Byte) :
    (framerStep cap f b).2 = .none ∧ (framerStep cap f b).1.len = f.len ∧
      (framerStep cap f b).1.MidFrame cap k (p ++ [b]) m := by
  obtain ⟨hp, hlen, hst⟩ := h
  have hcnt : p.length = f.cnt.toNat := hp.1
  have hlt : f.cnt.toNat < f.len.toNat := by omega
  rw [framerStep_data hst]
  refine ⟨rfl, rfl, Framer.consumed_data b _ hp hlt, ?_, ?_⟩
  · simpa [Nat.add_assoc, Nat.add_comm] using hlen
  · have : f.cnt + 1#8 = f.len ↔ m = 0 := by
      rw [← BitVec.toNat_inj, toNat_succ_of_lt hlt]
      omega
    simp [this]

/-- The whole rest of the payload, by induction on it. -/
theorem Framer.MidFrame.payload {cap k : Nat} {f : Framer} {p q : List Byte} (h : f.MidFrame cap k p q.length) :
    f.events cap q = .replicate q.length .none ∧ (f.after cap q).len = f.len ∧
      (f.after cap q).MidFrame cap k (p ++ q) 0 := by
  induction q generalizing f p with
  | nil => exact ⟨rfl, rfl, by simpa using h⟩
  | cons b q ih =>
    obtain ⟨hevent, hlen, hmid⟩ := h.data b
    obtain ⟨hevents, hlen', hmid'⟩ := ih hmid
    refine ⟨?_, hlen'.trans hlen, by simpa using hmid'⟩
    simp [hevent, hevents, List.replicate_succ]

/-- The checksum byte ends the frame; the running sum has become the sum of all its bytes (R125). -/
theorem Framer.MidFrame.checksum {cap k : Nat} {f : Framer} {p : List Byte} (h : f.MidFrame cap k p 0) (c : Byte) :
    framerStep cap f c = ({ f with st := .idle, sum := add8 f.sum c }, frameEvent f.len p c) := by
  obtain ⟨-, hsum, -⟩ := h.consumed
  rw [framerStep_checksum h.st, frameEvent]
  simp only [add8_eq_zero, hsum, Nat.mod_add_mod]

/-- What the consumer finds when all payload bytes are consumed: the payload, up to CAP. -/
theorem Framer.MidFrame.read {cap k : Nat} {f : Framer} {p : List Byte} (h : f.MidFrame cap k p 0) {i : Nat}
    (hi : i < min f.len.toNat cap) : some (f.buf.read k i) = p[i]? := by
  obtain ⟨hcnt, -, hcells⟩ := h.consumed
  have hlen := h.len
  exact hcells i (by omega)

/-- The rest of a frame: no event before the last byte's, then Idle, and the payload stands in the cells up to CAP. -/
theorem Framer.MidFrame.rest {cap k : Nat} {f : Framer} {p q : List Byte} (h : f.MidFrame cap k p q.length) (c : Byte) :
    f.events cap (q ++ [c]) = .replicate q.length .none ++ [frameEvent f.len (p ++ q) c] ∧
      (f.after cap (q ++ [c])).st = .idle ∧
      ∀ i, i < min f.len.toNat cap → some ((f.after cap (q ++ [c])).buf.read k i) = (p ++ q)[i]? := by
  obtain ⟨hevents, hlen, hmid⟩ := h.payload
  simp only [Framer.events_append, Framer.after_append, Framer.events_cons, Framer.after_cons, Framer.events_nil,
    Framer.after_nil, hmid.checksum, hevents, hlen, true_and]
  exact fun i hi => hmid.read (hlen ▸ hi)

/-- The length byte, the payload and the checksum of an open frame, whatever their values (R129). -/
theorem Framer.run_openFrame {cap k : Nat} {f : Framer} {n : Byte} {p : List Byte} (h : f.st = .waitCount)
    (hp : p.length = n.toNat) (c : Byte) :
    f.events cap (n :: (p ++ [c])) = .replicate (n.toNat + 1) .none ++ [frameEvent n p c] ∧
      (f.after cap (n :: (p ++ [c]))).st = .idle ∧
      ∀ i, i < min n.toNat cap → some ((f.after cap (n :: (p ++ [c]))).buf.read k i) = p[i]? := by
  obtain ⟨hevent, hlen, hmid⟩ := Framer.midFrame_count (cap := cap) (k := k) h n
  obtain ⟨hevents, hafter⟩ := (hp ▸ hmid).rest c
  rw [hlen] at hevents hafter
  exact ⟨by rw [Framer.events_cons, hevent, hevents, hp]; rfl, hafter⟩

/-- A frame fed from Idle: its only event is the last byte's, and its payload stands in the cells (R134, R135). -/
theorem Framer.run_frame {cap k : Nat} {f : Framer} {n : Byte} {p : List Byte} (h : f.st = .idle)
    (hp : p.length = n.toNat) (c : Byte) :
    f.events cap (header :: n :: (p ++ [c])) = .replicate (n.toNat + 2) .none ++ [frameEvent n p c] ∧
      (f.after cap (header :: n :: (p ++ [c]))).st = .idle ∧
      ∀ i, i < min n.toNat cap → some ((f.after cap (header :: n :: (p ++ [c]))).buf.read k i) = p[i]? := by
  rw [Framer.events_cons, Framer.after_cons, framerStep_header h]
  obtain ⟨hevents, hafter⟩ := Framer.run_openFrame (cap := cap) (k := k) (f := { f with st := .waitCount }) rfl hp c
  exact ⟨by rw [hevents]; rfl, hafter⟩

/-! ### A frame, backwards -/

/-- How FR got from `f` to where it is, by the bytes `bs`: it is in Idle, or the last of the bytes opened a frame in
Idle and are all that is consumed of it. -/
inductive Framer.Traced (cap k : Nat) (f : Framer) : List Byte → Framer → Prop
  | idle {bs : List Byte} {g : Framer} (st : g.st = .idle) : Traced cap k f bs g
  | opened {before : List Byte} {g : Framer} (start : (f.after cap before).st = .idle) (st : g.st = .waitCount) :
      Traced cap k f (before ++ [header]) g
  | payload {before p : List Byte} {g : Framer} {m : Nat} (start : (f.after cap before).st = .idle)
      (mid : g.MidFrame cap k p m) : Traced cap k f (before ++ header :: g.len :: p) g

/-- One more byte is traced, too. -/
theorem Framer.Traced.step {cap k : Nat} {f : Framer} {bs : List Byte} (h : f.Traced cap k bs (f.after cap bs))
    (b : Byte) : f.Traced cap k (bs ++ [b]) (framerStep cap (f.after cap bs) b).1 := by
  generalize hg : f.after cap bs = g at h
  cases h with
  | idle hst =>
    by_cases hb : b = header
    · subst hb
      exact .opened (hg ▸ hst) (by rw [framerStep_header hst])
    · exact .idle (by rw [framerStep_noise hst hb]; exact hst)
  | @opened before _ start hst =>
    obtain ⟨-, hlen, hmid⟩ := Framer.midFrame_count (cap := cap) (k := k) hst b
    simpa [hlen] using Traced.payload start hmid
  | @payload before p _ m start mid =>
    cases m with
    | zero => exact .idle (by rw [mid.checksum])
    | succ m =>
      obtain ⟨-, hlen, hmid⟩ := mid.data b
      simpa [hlen] using Traced.payload start hmid

theorem Framer.traced_after {cap k : Nat} {f : Framer} (h : f.st = .idle) (bs : List Byte) :
    f.Traced cap k bs (f.after cap bs) := by
  induction bs using List.reverseRecOn with
  | nil => exact .idle h
  | append_singleton bs b ih => simpa using ih.step b

/-- Only a checksum byte is answered by `Accept`: it ends a frame that was opened in Idle, whose bytes are the last
ones fed (R131). -/
theorem Framer.Traced.of_accept {cap k : Nat} {f g : Framer} {bs : List Byte} {c n : Byte} (h : f.Traced cap k bs g)
    (haccept : (framerStep cap g c).2 = .accept n) :
    ∃ before p, bs = before ++ header :: g.len :: p ∧ (f.after cap before).st = .idle ∧ g.MidFrame cap k p 0 := by
  cases h with
  | idle hst =>
    by_cases hb : c = header
    · simp [hb, framerStep_header hst] at haccept
    · simp [framerStep_noise hst hb] at haccept
  | opened _ hst => simp [framerStep_count hst] at haccept
  | @payload before p _ m start mid =>
    cases m with
    | zero => exact ⟨before, p, rfl, start, mid⟩
    | succ m => simp [(mid.data c).1] at haccept

/-! ### Frames that a sender computes -/

theorem length_eq_toNat_ofNat {p : List Byte} (h : p.length ≤ 255) : p.length = (BitVec.ofNat 8 p.length).toNat :=
  (Nat.mod_eq_of_lt (by omega)).symm

theorem frameEvent_of_checksum {p : List Byte} (h : p.length ≤ 255) :
    frameEvent (BitVec.ofNat 8 p.length) p (frameChecksum p) = .accept (BitVec.ofNat 8 p.length) := by
  rw [frameEvent, ← length_eq_toNat_ofNat h, if_pos ((frameChecksumUnique p _ h).mpr rfl)]

theorem frameEvent_of_other_checksum {p : List Byte} {c : Byte} (h : p.length ≤ 255) (hc : c ≠ frameChecksum p) :
    frameEvent (BitVec.ofNat 8 p.length) p c = .reject := by
  rw [frameEvent, ← length_eq_toNat_ofNat h, if_neg (mt (frameChecksumUnique p c h).mp hc)]

/-- Another value of one payload byte asks for another checksum. -/
theorem frameChecksum_set_ne {p : List Byte} {i : Nat} {x : Byte} (h : p.length ≤ 255) (hi : i < p.length)
    (hx : p[i]? ≠ some x) : frameChecksum p ≠ frameChecksum (p.set i x) := by
  intro heq
  have hold := (frameChecksumUnique p _ h).mpr rfl
  have hnew := (frameChecksumUnique (p.set i x) _ (by simpa using h)).mpr heq
  have hset := byteSum_set p i x p[i] (List.getElem?_eq_getElem hi)
  have hne : p[i].toNat ≠ x.toNat := fun h => hx (by rw [List.getElem?_eq_getElem hi, BitVec.eq_of_toNat_eq h])
  rw [List.length_set] at hnew
  have := p[i].isLt
  have := x.isLt
  omega

theorem frame_set_payload {p : List Byte} {i : Nat} (hi : i < p.length) (x : Byte) :
    (frame p).set (i + 2) x = header :: BitVec.ofNat 8 p.length :: (p.set i x ++ [frameChecksum p]) := by
  simp [frame, List.set_append_left _ _ hi]

theorem frame_set_checksum (p : List Byte) (x : Byte) :
    (frame p).set (p.length + 2) x = header :: BitVec.ofNat 8 p.length :: (p ++ [x]) := by
  simp [frame]

/-! ### The statements -/

/-- Settles O22: the frame's bytes by `Framer.run_frame`, and its sum is 0 modulo 256 by the sender's formula. -/
theorem wellFormedFrameAccepted : Obligations.WellFormedFrameAccepted := by
  intro p s hp hst
  have hlen := length_eq_toNat_ofNat hp
  obtain ⟨hevents, hidle, hcells⟩ :=
    Framer.run_frame (cap := s.params.cap) (k := s.cells) hst hlen (frameChecksum p)
  rw [frameEvent_of_checksum hp, ← hlen] at hevents
  rw [← hlen] at hcells
  exact ⟨s.afterFeed (frame p), (feed_eq _ s).trans (by rw [frame, hevents]), hidle, hcells⟩

/-- Settles O23: the corrupted bytes are still a frame of that length, with a checksum that is not its own. -/
theorem singleByteCorruptionRejected : Obligations.SingleByteCorruptionRejected := by
  intro p s hp hst
  have hlen := length_eq_toNat_ofNat hp
  refine ⟨fun i x hi hx => feed_of_events ?_, fun x hx => feed_of_events ?_⟩
  · have hset : (p.set i x).length = p.length := List.length_set
    obtain ⟨hevents, -⟩ :=
      Framer.run_frame (cap := s.params.cap) (k := s.cells) hst (hset.trans hlen) (frameChecksum p)
    have hreject := frameEvent_of_other_checksum (hset.trans_le hp) (frameChecksum_set_ne hp hi hx)
    rw [hset] at hreject
    rw [frame_set_payload hi, hevents, hreject, ← hlen]
  · obtain ⟨hevents, -⟩ := Framer.run_frame (cap := s.params.cap) (k := s.cells) hst hlen x
    rw [frame_set_checksum, hevents, frameEvent_of_other_checksum hp hx, ← hlen]

/-- Settles O25: the byte that was accepted ended a frame in the trace of the bytes before it. -/
theorem acceptMeansFrame : Obligations.AcceptMeansFrame := by
  intro bs s t es n hst h
  obtain ⟨hevents, rfl⟩ : s.fr.events s.params.cap bs = es ++ [.accept n] ∧ s.afterFeed bs = t := by
    simpa [feed_eq] using h
  cases bs using List.reverseRecOn with
  | nil => simp at hevents
  | append_singleton bs c =>
    have haccept : (framerStep s.params.cap (s.fr.after s.params.cap bs) c).2 = .accept n := by
      rw [Framer.events_append] at hevents
      simpa using List.append_inj_right' hevents rfl
    obtain ⟨before, p, hbs, start, hmid⟩ := (Framer.traced_after (k := s.cells) hst bs).of_accept haccept
    have hfr : (s.afterFeed (bs ++ [c])).fr = (framerStep s.params.cap (s.fr.after s.params.cap bs) c).1 := by
      simp [State.afterFeed]
    rw [hmid.checksum] at haccept hfr
    obtain ⟨rfl, hsum⟩ := frameEvent_eq_accept haccept
    refine ⟨before, p, c, _, _, ?_, hmid.len, hsum, feed_eq before s, start, by rw [hfr], fun i hi => ?_⟩
    · simpa using congrArg (· ++ [c]) hbs
    · rw [State.cell, hfr]
      exact hmid.read hi

/-- Settles O4: below the length the count does not wrap, and the cells read as after a bounds-checked store. -/
theorem frDataTakesPayloadByte : Obligations.FrDataTakesPayloadByte := by
  intro s b hst hlt
  have hcnt := toNat_succ_of_lt hlt
  refine ⟨by rw [hst]; rfl, _, rfl, add8_toNat .., hcnt, ?_, fun hcap => ?_, fun a ha => ?_, rfl, rfl, rfl⟩
  · simp [← BitVec.toNat_inj, hcnt, hst]
  · simp [State.cell, Memory.read_store, hcap]
  · simp only [State.cell, State.emit_fr, State.emit_cells, Memory.read_store]
    exact if_neg (by omega)

/-- Settles O5: the two outcomes of `execFrChk_cases`. -/
theorem frChkAcceptsOrRejects : Obligations.FrChkAcceptsOrRejects := by
  intro s c
  refine ⟨rfl, ?_⟩
  rcases execFrChk_cases c s with ⟨hsum, hx⟩ | ⟨hsum, hx⟩
  · rw [add8_eq_zero] at hsum
    exact ⟨_, hx, rfl, add8_toNat .., by rw [if_pos hsum]; rfl, by rw [if_pos hsum]; rfl, rfl⟩
  · rw [ne_eq, add8_eq_zero] at hsum
    exact ⟨_, hx, rfl, add8_toNat .., by rw [if_neg hsum]; rfl, by rw [if_neg hsum]; rfl, rfl⟩

/-- Settles O6: the equation of a byte's step. -/
theorem feedByteIsWholeStep : Obligations.FeedByteIsWholeStep := fun s b => feedByte_eq_framerStep b s

/-- Settles O20: the fold of a concatenation, of its events, and of the state reached. -/
theorem feedOfAppend : Obligations.FeedOfAppend := by
  intro xs ys q
  simp only [feed_eq, Framer.events_append, State.afterFeed_append]
  rfl

/-- Settles O21: FEED is a fold of a total step. -/
theorem feedIsTotal : Obligations.FeedIsTotal :=
  fun bs q => ⟨_, _, feed_eq bs q, Framer.events_length .., rfl⟩

/-- Settles O24: FR is the same after the noise. -/
theorem noiseLeavesFramerIdle : Obligations.NoiseLeavesFramerIdle := by
  intro noise s hst hnoise
  obtain ⟨hevents, hafter⟩ :=
    Framer.run_noise (cap := s.params.cap) hst fun b hb => ne_header_of_toNat (hnoise b hb)
  refine ⟨_, by rw [feed_eq, hevents], hafter, fun bs es t h => ?_⟩
  cases (feed_eq bs s).symm.trans h
  exact ⟨_, by rw [feed_eq, Framer.events_append, hevents, hafter], by simp [State.afterFeed, hafter]⟩

/-- Settles O26: the bytes are a payload and a checksum. -/
theorem openFrameTakesItsBytes : Obligations.OpenFrameTakesItsBytes := by
  intro s n body hst hbody
  obtain ⟨p, c, rfl⟩ : ∃ p c, body = p ++ [c] :=
    (List.eq_nil_or_concat' body).resolve_left fun h => by simp [h] at hbody
  have hp : p.length = n.toNat := by simpa using hbody
  obtain ⟨hevents, hidle, -⟩ := Framer.run_openFrame (cap := s.params.cap) (k := s.cells) hst hp c
  refine ⟨frameEvent n p c, _, by rw [feed_eq, hevents], ?_, hidle⟩
  exact ite_eq_or_eq ..

/-- Settles O27: the two states have the same FR but for the buffer. -/
theorem eventsIndependentOfBuffer : Obligations.EventsIndependentOfBuffer := by
  intro bs s s' hst hlen hcnt hsum es es' t t' h h'
  cases (feed_eq bs s).symm.trans h
  cases (feed_eq bs s').symm.trans h'
  have hfr : s'.fr = s.fr.withBuf s'.fr.buf := by
    rw [Framer.withBuf, ← hst, ← hlen, ← hcnt, ← hsum]
  obtain ⟨hevents, m, hafter⟩ := Framer.run_withBuf s.params.cap s'.params.cap s.fr s'.fr.buf bs
  rw [← hfr] at hevents hafter
  exact ⟨hevents, by simp [State.afterFeed, hafter, Framer.withBuf]⟩

/-- Settles O1: the pseudocode is FR.HDR's meaning. -/
theorem frHdrOpensFrame : Obligations.FrHdrOpensFrame := ⟨rfl, fun _ => rfl⟩

/-- Settles O2: a byte other than 19 is not the header. -/
theorem frSkipDiscards : Obligations.FrSkipDiscards :=
  fun _ _ hb => ⟨if_neg (ne_header_of_toNat hb), rfl⟩

/-- Settles O3: the loaded sum is that of header and length. -/
theorem frCountLoadsLength : Obligations.FrCountLoadsLength :=
  fun _ n => ⟨rfl, _, rfl, rfl, rfl, add8_toNat header n, rfl, rfl, rfl⟩

end Sys2Proof.Machine
end

section
/-!
PROOFS. What the surrounding software's calls do, turn by turn (43_surrounding_units.md): one equation for a turn of
`pollOnce` with a byte waiting (`step_poll_cons`), and what follows its event; runs of the readers that find their
bytes waiting, as one equation each; the wrap-safe comparison; and the statements of that file, each a short use of
these.
-/

namespace Sys2Proof

theorem Params.sensorLenOf_of_lookupByte {p : Params} {id : Byte} {n : Nat}
    (h : lookupByte p.sensorLen id = some n) : p.sensorLenOf id = n := by
  rw [Params.sensorLenOf, h]

end Sys2Proof

namespace Sys2Proof.Machine

open Sys2Proof

/-! ### After the event of a `pollOnce` turn -/

theorem State.afterPolled_none {t : State} (h : t.event = some .none) (now : Nat) :
    t.afterPolled now = t.lineAtHeader.queue [.poll now] := by
  simp [State.afterPolled, h]

theorem State.afterPolled_discard {t : State} {x : Byte} (h : t.event = some (.discard x)) (now : Nat) :
    t.afterPolled now = (t.lineReader x).queue [.poll now] := by
  simp [State.afterPolled, h]

theorem State.afterPolled_accept {t : State} {n : Byte} (h : t.event = some (.accept n)) (now : Nat) :
    t.afterPolled now = t.answer (.polled (some (n, t.payload n))) := by
  simp [State.afterPolled, h]

theorem State.afterPolled_reject {t : State} (h : t.event = some .reject) (now : Nat) :
    t.afterPolled now = t.answer (.polled none) := by
  simp [State.afterPolled, h]

/-- What follows the event touches the line reader's state, the inputs and the report, and nothing else. -/
theorem State.afterPolled_frame (t : State) (now : Nat) :
    ∃ line lines inputs report, t.afterPolled now =
      { t with sur := { t.sur with line := line, lines := lines }, inputs := inputs, report := report } := by
  unfold State.afterPolled
  split
  case h_1 x _ =>
    obtain ⟨_, _, h⟩ := t.lineReader_frame x
    exact ⟨_, _, _, _, by rw [h]; rfl⟩
  case h_4 =>
    obtain ⟨_, _, h⟩ := t.lineAtHeader_frame
    exact ⟨_, _, _, _, by rw [h]; rfl⟩
  all_goals exact ⟨_, _, _, _, rfl⟩

@[simp] theorem State.afterPolled_event (t : State) (now : Nat) : (t.afterPolled now).event = t.event := by
  obtain ⟨_, _, _, _, h⟩ := t.afterPolled_frame now
  rw [h]

@[simp] theorem State.afterPolled_chan (t : State) (now : Nat) : (t.afterPolled now).chan = t.chan := by
  obtain ⟨_, _, _, _, h⟩ := t.afterPolled_frame now
  rw [h]

theorem State.afterPolled_pulses (t : State) (now : Nat) :
    (t.afterPolled now).sur.pulses = t.sur.pulses ∧ (t.afterPolled now).sur.due = t.sur.due := by
  obtain ⟨_, _, _, _, h⟩ := t.afterPolled_frame now
  rw [h]
  exact ⟨rfl, rfl⟩

/-- At `None` and `Discard` the call goes on with the next byte and has not returned (R151). -/
theorem State.afterPolled_goes_on {t : State} (h : t.event = some .none ∨ ∃ x, t.event = some (.discard x))
    (now : Nat) :
    (t.afterPolled now).inputs = .poll now :: t.inputs ∧ (t.afterPolled now).report = t.report := by
  rcases h with h | ⟨x, h⟩
  · obtain ⟨_, _, hline⟩ := t.lineAtHeader_frame
    rw [State.afterPolled_none h, hline]
    exact ⟨rfl, rfl⟩
  · obtain ⟨_, _, hline⟩ := t.lineReader_frame x
    rw [State.afterPolled_discard h, hline]
    exact ⟨rfl, rfl⟩

/-! ### The liveness check -/

/-- What the liveness check does depends on the surrounding state and the parameters only. -/
theorem State.liveness_of_same {s t : State} (hsur : t.sur = s.sur) (hparams : t.params = s.params) (now : Nat) :
    t.liveness now = { t with sur := (s.liveness now).sur } := by
  cases t
  cases hsur
  cases hparams
  unfold State.liveness
  split <;> rfl

/-- The liveness check leaves the line reader alone. -/
theorem State.liveness_line (s : State) (now : Nat) :
    (s.liveness now).sur.line = s.sur.line ∧ (s.liveness now).sur.lines = s.sur.lines := by
  obtain ⟨_, _, h⟩ := s.liveness_frame now
  rw [h]
  exact ⟨rfl, rfl⟩

theorem State.liveness_of_due {s : State} {now : Nat} (h : pulseDue s.params.clockBits now s.sur.due = true) :
    (s.liveness now).sur.pulses = s.sur.pulses ++ [(now, s.params.pulseWidth)] ∧
      (s.liveness now).sur.due = (now + s.params.pulsePeriod) % 2 ^ s.params.clockBits := by
  rw [State.liveness, if_pos h]
  exact ⟨rfl, rfl⟩

theorem State.liveness_of_not_due {s : State} {now : Nat} (h : pulseDue s.params.clockBits now s.sur.due = false) :
    s.liveness now = s := by
  simp [State.liveness, h]

/-! ### A turn of `pollOnce` -/

/-- The state in which `pollOnce` looks at the event: byte `b` has been read, the liveness check has run, and FR has
taken the byte (R151, C5). -/
def State.polled (s : State) (now : Nat) (b : Byte) (rx : List Byte) (rest : List Input) : State :=
  { s with
    fr := (framerStep s.params.cap s.fr b).1
    event := some (framerStep s.params.cap s.fr b).2
    report := none
    chan := { s.chan with rx := rx }
    inputs := rest
    sur := (s.liveness now).sur }

/-- With no byte waiting the call returns false at once (D17). -/
theorem step_poll_nil {s : State} {now : Nat} {rest : List Input} (hin : s.inputs = .poll now :: rest)
    (hrx : s.chan.rx = []) :
    step s = .next (State.answer { s.clearPorts with inputs := rest } (.polled none)) :=
  (step_cons hin).trans (runPoll_nil hrx)

/-- With a byte waiting the turn is the read, the liveness check, R126's step, and what its event asks for. -/
theorem step_poll_cons {s : State} {now : Nat} {b : Byte} {rx : List Byte} {rest : List Input}
    (hin : s.inputs = .poll now :: rest) (hrx : s.chan.rx = b :: rx) :
    step s = .next ((s.polled now b rx rest).afterPolled now) := by
  let t : State := { s.clearPorts with inputs := rest, chan := { s.chan with rx := rx } }
  have hread : State.chanRead { s.clearPorts with inputs := rest } = some (b, t) := State.chanRead_cons _ hrx
  have hlive : t.liveness now = { t with sur := (s.liveness now).sur } :=
    State.liveness_of_same (s := s) (t := t) rfl rfl now
  rw [step_cons hin]
  simp only [runInput, runPoll, hread, hlive, feedByte_eq_framerStep]
  rfl

/-! ### The line reader -/

theorem State.lineReader_lineFeed (s : State) : s.lineReader lineFeed = s.finishLine true := if_pos rfl

/-- A byte that is no line feed and does not fill the buffer joins it (R153). -/
theorem State.lineReader_joins {s : State} {x : Byte} (hx : x ≠ lineFeed)
    (hlen : s.sur.line.length + 1 < s.params.line.maxLen) :
    s.lineReader x = { s with sur := { s.sur with line := s.sur.line ++ [x] } } := by
  rw [State.lineReader, if_neg hx, if_pos (by omega)]
  simp [hlen]

@[simp] theorem stripCr_append_cr (l : List Byte) : stripCr (l ++ [carriageReturn]) = l := by
  simp [stripCr]

theorem stripCr_of_no_cr {l : List Byte} (h : l.getLast? ≠ some carriageReturn) : stripCr l = l := if_neg h

/-- The text of a terminated line under "terminator not stored, lone carriage returns kept" (U9). -/
theorem lineText_terminated {r : LineRules} (hkeep : r.keepTerminator = false) (hlone : r.stripLoneCr = false)
    (l : List Byte) : lineText r l true = stripCr l := by
  simp [lineText, hkeep, hlone]

/-- A discarded byte is the line reader's. -/
theorem step_poll_discard {s : State} {now : Nat} {b : Byte} {rx : List Byte} {rest : List Input}
    (hin : s.inputs = .poll now :: rest) (hrx : s.chan.rx = b :: rx) (hst : s.fr.st = .idle) (hb : b ≠ header) :
    step s = .next (((s.polled now b rx rest).lineReader b).queue [.poll now]) := by
  have hevent : (s.polled now b rx rest).event = some (.discard b) := by
    rw [State.polled, framerStep_noise hst hb]
  rw [step_poll_cons hin hrx, State.afterPolled_discard hevent]

/-! ### Turns of `pollOnce` on a frame -/

/-- Turns whose events are all `None` feed FR the waiting bytes, one each, and leave the call where it was. -/
theorem steps_poll_none {now : Nat} {bs later : List Byte} {rest : List Input} {s : State}
    (hnone : ∀ e ∈ s.fr.events s.params.cap bs, e = .none) (hrx : s.chan.rx = bs ++ later)
    (hin : s.inputs = .poll now :: rest) :
    ∃ t, steps bs.length s = .next t ∧ t.fr = s.fr.after s.params.cap bs ∧ t.cells = s.cells ∧
      t.params = s.params ∧ t.chan.rx = later ∧ t.inputs = .poll now :: rest := by
  induction bs generalizing s with
  | nil => exact ⟨s, rfl, rfl, rfl, rfl, hrx, hin⟩
  | cons b bs ih =>
    obtain ⟨hevent, hnone⟩ := List.forall_mem_cons.mp hnone
    let u := s.polled now b (bs ++ later) rest
    have hsame : u.SameFramer (u.afterPolled now) := u.afterPolled_sameFramer now
    have hgo := State.afterPolled_goes_on (t := u) (.inl (congrArg some hevent)) now
    obtain ⟨t, hrun, hfr, hcells, hparams, hrx', hin'⟩ :=
      ih (s := u.afterPolled now) (by rw [hsame.fr, hsame.params]; exact hnone)
        (congrArg Channel.rx (u.afterPolled_chan now)) hgo.1
    refine ⟨t, (steps_succ _ (step_poll_cons hin hrx)).trans hrun, ?_, hcells.trans hsame.cells,
      hparams.trans hsame.params, hrx', hin'⟩
    rw [hfr, hsame.fr, hsame.params]
    rfl

/-- Bytes whose only event but `None` is the last one's `Accept`: the call returns at that byte, with the payload. -/
theorem steps_poll_accept {now : Nat} {bs later : List Byte} {c n : Byte} {rest : List Input} {s : State}
    (hevents : s.fr.events s.params.cap (bs ++ [c]) = .replicate bs.length .none ++ [.accept n])
    (hrx : s.chan.rx = bs ++ c :: later) (hin : s.inputs = .poll now :: rest) :
    ∃ t, steps (bs.length + 1) s = .next t ∧ t.fr = s.fr.after s.params.cap (bs ++ [c]) ∧ t.cells = s.cells ∧
      t.params = s.params ∧ t.chan.rx = later ∧ t.inputs = rest ∧
      t.report = some (.polled (some (n, t.payload n))) := by
  rw [Framer.events_append] at hevents
  obtain ⟨hnone, hlast⟩ := List.append_inj' hevents rfl
  obtain ⟨u, hrun, hfr, hcells, hparams, hrx', hin'⟩ :=
    steps_poll_none (fun e he => List.eq_of_mem_replicate (hnone ▸ he)) hrx hin
  have hevent : (u.polled now c later rest).event = some (.accept n) := by
    simp only [State.polled, hfr, hparams]
    exact congrArg some (List.singleton_inj.mp hlast)
  have hstep := step_poll_cons hin' hrx'
  rw [State.afterPolled_accept hevent] at hstep
  refine ⟨_, (steps_add bs.length 1 hrun).trans (steps_succ 0 hstep), ?_, hcells, hparams, rfl, rfl, rfl⟩
  simp [State.polled, hfr, hparams]

/-- The payload window of a frame whose cells below CAP hold its payload (R32). -/
theorem State.payload_eq_take {s : State} {n : Byte} {p : List Byte} (hn : p.length = n.toNat)
    (hcells : ∀ i, i < min n.toNat s.params.cap → some (s.cell i) = p[i]?) :
    s.payload n = p.take s.params.cap := by
  refine List.ext_getElem (by simp [State.payload, hn, Nat.min_comm]) fun i hi _ => ?_
  have hlt : i < min n.toNat s.params.cap := by simpa [State.payload] using hi
  have hcell := hcells i hlt
  rw [List.getElem?_eq_getElem (by omega)] at hcell
  simpa [State.payload] using hcell

/-! ### A step of a reader -/

/-- The state in which an input runs when the inputs `rest` and the waiting bytes `later` are left. -/
def State.reading (s : State) (rest : List Input) (later : List Byte) : State :=
  { s.clearPorts with inputs := rest, chan := { s.chan with rx := later } }

theorem step_reading {s : State} {i : Input} {rest : List Input} (hin : s.inputs = i :: rest) :
    step s = runInput i (s.reading rest s.chan.rx) := step_cons hin

/-- With no byte waiting and none to come the wait ends without a byte (R154). -/
theorem State.takeByte_timeout {s : State} (hrx : s.chan.rx = []) (harrivals : s.sur.arrivals = []) :
    s.takeByte =
      (none, { s with sur := { s.sur with waited := s.sur.waited + s.params.byteTimeout } }) := by
  simp [State.takeByte, s.chanRead_nil hrx, harrivals]

/-- Everything a step of `readExact` with bytes to read can do: it waits at most the per-byte timeout, and has then
taken a byte or returns `Timeout`. -/
theorem step_readExact_cases {n : Nat} {got : List Byte} {rest : List Input} {s : State}
    (hin : s.inputs = .readExact (n + 1) got :: rest) :
    ∃ u : State, u.inputs = rest ∧ u.fr = s.fr ∧ u.params = s.params ∧
      u.sur.waited ≤ s.sur.waited + s.params.byteTimeout ∧
      (step s = .next (u.answer (.timeout got)) ∨ ∃ b, step s = .next (u.queue [.readExact n (got ++ [b])])) := by
  have hstep := step_reading hin
  obtain ⟨r, u, htake, hfr, -, hparams, hin', -, -, -, -, hwaited⟩ := (s.reading rest s.chan.rx).takeByte_spec
  simp only [runInput, runReadExact, htake] at hstep
  refine ⟨u, hin', hfr, hparams, hwaited, ?_⟩
  cases r with
  | none => exact .inl hstep
  | some b => exact .inr ⟨b, hstep⟩

/-- The count byte of `getScript`, where it waits (R157, R184). -/
theorem step_scriptCount {cap : Nat} {c : Byte} {rx : List Byte} {rest : List Input} {s : State}
    (hin : s.inputs = .scriptCount cap :: rest) (hrx : s.chan.rx = c :: rx) :
    step s = .next (if 100 < c.toNat then (s.reading rest rx).answer (.violation 0#8)
      else (s.reading rest rx).queue [.scriptBody c.toNat cap c []]) := by
  rw [step_reading hin]
  simp only [runInput, runScriptCount, State.takeByte_cons (s := s.reading rest s.chan.rx) hrx]
  exact (apply_ite Host.Outcome.next _ _ _).symm

/-! ### Runs of the readers -/

theorem steps_one (s : State) : steps 1 s = step s := by
  cases h : step s <;> simp [steps, h]

/-- `readExact` takes the bytes that wait, one a step, and is then where `m` are left to read. -/
theorem steps_readExact {m : Nat} {bs later got : List Byte} {rest : List Input} {s : State}
    (hrx : s.chan.rx = bs ++ later) (hin : s.inputs = .readExact (bs.length + m) got :: rest) :
    steps (bs.length + 1) s = runReadExact m (got ++ bs) (s.reading rest later) := by
  induction bs generalizing s got with
  | nil =>
    rw [List.append_nil, ← show s.chan.rx = later from hrx]
    simpa [steps_one, runInput] using step_reading hin
  | cons b bs ih =>
    have hstep : step s = .next ((s.reading rest (bs ++ later)).queue [.readExact (bs.length + m) (got ++ [b])]) := by
      rw [step_reading hin, List.length_cons, Nat.add_right_comm]
      simp only [runInput, runReadExact, State.takeByte_cons (s := s.reading rest s.chan.rx) hrx]
      rfl
    rw [List.length_cons, steps_succ _ hstep, ih rfl rfl, List.append_assoc]
    rfl

/-- `readExact` returns, by induction on the number of bytes to read. -/
theorem steps_readExact_returns {n : Nat} {got : List Byte} {rest : List Input} {s : State}
    (hin : s.inputs = .readExact n got :: rest) :
    ∃ k t, k ≤ n + 1 ∧ steps k s = .next t ∧ t.inputs = rest ∧ t.fr = s.fr ∧
      ((∃ bs, bs.length = got.length + n ∧ t.report = some (.bytes bs)) ∨
        ∃ bs, bs.length < got.length + n ∧ t.report = some (.timeout bs)) ∧
      t.sur.waited ≤ s.sur.waited + n * s.params.byteTimeout := by
  induction n generalizing s got with
  | zero =>
    exact ⟨1, _, le_rfl, (steps_one s).trans (step_reading hin), rfl, rfl, .inl ⟨got, rfl, rfl⟩,
      Nat.le_add_right ..⟩
  | succ n ih =>
    rw [Nat.succ_mul]
    obtain ⟨u, hin', hfr, hparams, hwaited, hstep | ⟨b, hstep⟩⟩ := step_readExact_cases hin
    · refine ⟨1, _, by omega, (steps_one s).trans hstep, hin', hfr, .inr ⟨got, by omega, rfl⟩, ?_⟩
      rw [State.answer_sur]
      omega
    · obtain ⟨k, t, hk, hrun, hinputs, hfr', hreport, hwaited'⟩ :=
        ih (got := got ++ [b]) (s := u.queue [.readExact n (got ++ [b])]) (congrArg (_ :: ·) hin')
      refine ⟨k + 1, t, by omega, (steps_succ k hstep).trans hrun, hinputs, hfr'.trans hfr, ?_, ?_⟩
      · simpa [Nat.add_assoc, Nat.add_comm] using hreport
      · rw [State.queue_sur, State.queue_params, hparams] at hwaited'
        omega

/-- What `getScript` copies at one byte keeps at most `cap` bytes of those read (R157). -/
theorem take_append_of_room (cap : Nat) (got : List Byte) (x : Byte) :
    (if (got.take cap).length < cap then got.take cap ++ [x] else got.take cap) = (got ++ [x]).take cap := by
  by_cases hroom : got.length < cap
  · rw [List.take_of_length_le hroom.le, if_pos hroom, List.take_of_length_le (by simpa using hroom)]
  · rw [if_neg (by simpa using hroom), List.take_append_of_le_length (by omega)]

/-- `getScript`'s second phase takes the bytes that wait and copies the first `cap` of them. -/
theorem steps_scriptBody {m cap : Nat} {count : Byte} {bs later got : List Byte} {rest : List Input} {s : State}
    (hrx : s.chan.rx = bs ++ later) (hin : s.inputs = .scriptBody (bs.length + m) cap count (got.take cap) :: rest) :
    steps (bs.length + 1) s = runScriptBody m cap count ((got ++ bs).take cap) (s.reading rest later) := by
  induction bs generalizing s got with
  | nil =>
    rw [List.append_nil, ← show s.chan.rx = later from hrx]
    simpa [steps_one, runInput] using step_reading hin
  | cons b bs ih =>
    have hstep : step s = .next ((s.reading rest (bs ++ later)).queue
        [.scriptBody (bs.length + m) cap count ((got ++ [b]).take cap)]) := by
      rw [step_reading hin, List.length_cons, Nat.add_right_comm]
      simp only [runInput, runScriptBody, State.takeByte_cons (s := s.reading rest s.chan.rx) hrx, take_append_of_room]
      rfl
    rw [List.length_cons, steps_succ _ hstep, ih rfl rfl, List.append_assoc]
    rfl

/-- A call that asks for a command other than BAUD and a read, with the bytes to read waiting. -/
theorem steps_query {i : Instr} {bs later : List Byte} {rest : List Input} {s : State}
    (hcall : step s = .next ((s.reading rest s.chan.rx).queue [.command i, .readExact bs.length []]))
    (hi : i.isWellFormedCommand = true) (hbaud : ∀ k, i ≠ .baud k) (hrx : s.chan.rx = bs ++ later) :
    ∃ t, steps (bs.length + 3) s = .next t ∧
      t.report = some (.bytes bs) ∧ t.chan.rx = later ∧ t.inputs = rest ∧
      t.chan.tx = s.chan.tx ++ encode s.params i := by
  obtain ⟨u, hsend, hin, -, -, hchan⟩ := step_command_of_not_baud
    (s := (s.reading rest s.chan.rx).queue [.command i, .readExact bs.length []]) rfl hi hbaud
  have hread := steps_readExact (m := 0) (later := later) (by rw [hchan]; exact hrx) hin
  exact ⟨_, (steps_succ _ hcall).trans ((steps_succ _ hsend).trans hread), rfl, rfl, rfl, congrArg Channel.tx hchan⟩

/-! ### The pulse comparison -/

/-- Of the residues modulo an even number, the lower half are the non-negative signed values. -/
theorem bmod_nonneg_iff (x : Int) {m : Nat} (hm : 0 < m) : 0 ≤ x.bmod (2 * m) ↔ x % (2 * m : Nat) < m := by
  have hpos : (0 : Int) < (2 * m : Nat) := by omega
  have h0 := Int.emod_nonneg x hpos.ne'
  have h1 := Int.emod_lt_of_pos x hpos
  rw [Int.bmod_def]
  split <;> omega

/-! ### The statements -/

/-- Settles O49: the frame's events are `None` but for the last, which is its `Accept` (`Framer.run_frame`). -/
theorem pollReturnsWaitingFrame : Obligations.PollReturnsWaitingFrame := by
  intro s now p later rest hp hst hrx hin
  have hlen := length_eq_toNat_ofNat hp
  obtain ⟨hevents, hidle, hcells⟩ :=
    Framer.run_frame (cap := s.params.cap) (k := s.cells) hst hlen (frameChecksum p)
  rw [frameEvent_of_checksum hp, ← hlen] at hevents
  obtain ⟨t, hrun, hfr, hcells', hparams, hrx', hin', hreport⟩ :=
    steps_poll_accept (bs := header :: BitVec.ofNat 8 p.length :: p) (later := later) hevents (by simp [hrx, frame]) hin
  refine ⟨t, hrun, hrx', hin', hfr ▸ hidle, ?_⟩
  rw [hreport, State.payload_eq_take hlen, hparams]
  intro i hi
  rw [State.cell, hfr, hcells']
  exact hcells i (hparams ▸ hi)

/-- Settles O48: `step_poll_cons`, and what each event asks for. -/
theorem pollTurn : Obligations.PollTurn := by
  intro s now rest hin
  cases hrx : s.chan.rx with
  | nil => exact ⟨_, step_poll_nil hin hrx, fun _ => ⟨rfl, rfl, rfl⟩, nofun⟩
  | cons b rx =>
    refine ⟨_, step_poll_cons hin hrx, nofun, ?_⟩
    rintro _ _ ⟨⟩
    let u := s.polled now b rx rest
    refine ⟨(u.afterPolled_sameFramer now).fr, u.afterPolled_chan now, u.afterPolled_event now, ?_⟩
    cases hevent : (framerStep s.params.cap s.fr b).2 with
    | none => exact State.afterPolled_goes_on (t := u) (.inl (congrArg some hevent)) now
    | discard x => exact State.afterPolled_goes_on (t := u) (.inr ⟨x, congrArg some hevent⟩) now
    | accept n =>
      rw [State.afterPolled_accept (congrArg some hevent)]
      exact ⟨rfl, rfl⟩
    | reject =>
      rw [State.afterPolled_reject (congrArg some hevent)]
      exact ⟨rfl, rfl⟩

/-- Settles O50: only `Discard` calls the line reader, and only `None` meets a partly filled line
(`State.lineAtHeader_cases`). -/
theorem frameBytesNeverReachLineReader : Obligations.FrameBytesNeverReachLineReader := by
  intro s t now rest hin h hdiscard
  cases hrx : s.chan.rx with
  | nil =>
    cases (step_poll_nil hin hrx).symm.trans h
    exact .inl ⟨rfl, rfl⟩
  | cons b rx =>
    cases (step_poll_cons hin hrx).symm.trans h
    let u := s.polled now b rx rest
    obtain ⟨hline, hlines⟩ : u.sur.line = s.sur.line ∧ u.sur.lines = s.sur.lines := s.liveness_line now
    rw [State.afterPolled_event] at hdiscard ⊢
    cases hevent : (framerStep s.params.cap s.fr b).2 with
    | none =>
      have hcases := u.lineAtHeader_cases
      rw [hline, hlines] at hcases
      rw [State.afterPolled_none (congrArg some hevent)]
      exact hcases.imp_right fun ⟨hpartly, hpolicy, hempty, hlogged⟩ =>
        ⟨hpartly, hpolicy, congrArg some hevent, hempty, hlogged⟩
    | discard x => exact absurd (congrArg some hevent) (hdiscard x)
    | accept n =>
      rw [State.afterPolled_accept (congrArg some hevent)]
      exact .inl ⟨hline, hlines⟩
    | reject =>
      rw [State.afterPolled_reject (congrArg some hevent)]
      exact .inl ⟨hline, hlines⟩

/-- Settles O51: the bytes waiting are read (`steps_readExact`), and what is left to read then times out. -/
theorem readExactReturnsWaitingBytes : Obligations.ReadExactReturnsWaitingBytes := by
  refine ⟨fun s bs later rest hrx hin => ?_, fun s n rest hn harrivals hin => ?_⟩
  · exact ⟨_, steps_readExact (m := 0) hrx hin, rfl, rfl, rfl, rfl⟩
  · obtain ⟨m, rfl⟩ : ∃ m, n = s.chan.rx.length + (m + 1) := ⟨n - s.chan.rx.length - 1, by omega⟩
    have hread := steps_readExact (later := []) (List.append_nil _).symm hin
    rw [runReadExact, State.takeByte_timeout (s := s.reading rest []) rfl harrivals] at hread
    exact ⟨_, hread, rfl, rfl, rfl, rfl⟩

/-- Settles O52: from nothing read, the bytes returned are exactly `n`. -/
theorem readExactBoundedWait : Obligations.ReadExactBoundedWait := by
  intro s n rest hin
  simpa using steps_readExact_returns hin

/-- Settles O53: the two cases of the count check. -/
theorem scriptCountChecked : Obligations.ScriptCountChecked := by
  intro s cap c rx rest hin hrx
  refine ⟨_, step_scriptCount hin hrx, ?_⟩
  by_cases hc : 100 < c.toNat
  · rw [if_pos hc]
    exact ⟨rfl, rfl, fun _ => ⟨rfl, rfl⟩, fun h => absurd h hc.not_ge⟩
  · rw [if_neg hc]
    exact ⟨rfl, rfl, fun h => absurd h hc, fun _ => ⟨rfl, rfl⟩⟩

/-- Settles O54: request, count byte, and the second phase (`steps_scriptBody`). -/
theorem getScriptCopiesUpToCapacity : Obligations.GetScriptCopiesUpToCapacity := by
  intro s cap count bs later rest hcount hbs hrx hin
  have hcall : step s = .next ((s.reading rest s.chan.rx).queue [.command .getScript, .scriptCount cap]) :=
    step_reading hin
  obtain ⟨u, hrequest, hin', hfr, hparams, hchan⟩ := step_command_of_not_baud
    (s := (s.reading rest s.chan.rx).queue [.command .getScript, .scriptCount cap]) rfl rfl nofun
  have hcheck := step_scriptCount hin' (by rw [hchan]; exact hrx)
  rw [if_neg (by omega), ← hbs] at hcheck
  have hbody := steps_scriptBody (m := 0) (cap := cap) (count := count) (got := []) (rest := rest)
    (s := (u.reading rest (bs ++ later)).queue [.scriptBody bs.length cap count []]) rfl (by simp [State.reading])
  refine ⟨_, (steps_succ _ hcall).trans ((steps_succ _ hrequest).trans ((steps_succ _ hcheck).trans hbody)),
    rfl, rfl, rfl, hfr, congrArg Channel.tx hchan⟩

/-- Settles O55: each call asks for its command and its read. -/
theorem querySendsThenReads : Obligations.QuerySendsThenReads := by
  refine fun s id ids bs later rest hrx => ⟨fun hlen hin => ?_, fun hin => ?_⟩
  · refine steps_query (i := .query id) ?_ rfl nofun hrx
    rw [← Params.sensorLenOf_of_lookupByte hlen]
    exact step_reading hin
  · exact steps_query (i := .queryList ids) (step_reading hin) rfl nofun hrx

/-- Settles O56: the two cases of the line reader, in the state that has FR's step behind it. -/
theorem lineReaderAssemblesLines : Obligations.LineReaderAssemblesLines := by
  intro s t now b rx rest hin hst hrx hb h
  cases (step_poll_discard hin hrx hst (ne_header_of_toNat hb)).symm.trans h
  let u := s.polled now b rx rest
  obtain ⟨hline, hlines⟩ : u.sur.line = s.sur.line ∧ u.sur.lines = s.sur.lines := s.liveness_line now
  constructor
  · intro hbyte hlen
    have hx : b ≠ lineFeed := by rintro rfl; exact hbyte rfl
    rw [State.lineReader_joins hx (by rw [hline]; exact hlen)]
    exact ⟨congrArg (· ++ [b]) hline, hlines⟩
  · intro hbyte hkeep hlone
    obtain rfl : b = lineFeed := BitVec.eq_of_toNat_eq hbyte
    rw [State.lineReader_lineFeed]
    have hlogged : (u.finishLine true).sur.lines = s.sur.lines ++ [stripCr s.sur.line] := by
      simp only [State.finishLine, hline, hlines]
      rw [lineText_terminated (r := u.params.line) hkeep hlone]
    refine ⟨rfl, fun l hl => ?_, fun hl => ?_⟩
    · exact hlogged.trans (by rw [hl, stripCr_append_cr])
    · exact hlogged.trans (by rw [stripCr_of_no_cr hl])

/-- Settles O57: the liveness check runs between the read and FR's step, so only where a byte is read. -/
theorem pulseDrivenWhenDue : Obligations.PulseDrivenWhenDue := by
  intro s t now rest hin h
  cases hrx : s.chan.rx with
  | nil =>
    cases (step_poll_nil hin hrx).symm.trans h
    exact ⟨nofun, fun _ => ⟨rfl, rfl⟩⟩
  | cons b rx =>
    cases (step_poll_cons hin hrx).symm.trans h
    obtain ⟨hpulses, hnext⟩ := (s.polled now b rx rest).afterPolled_pulses now
    rw [hpulses, hnext]
    refine ⟨fun _ hdue => State.liveness_of_due hdue, fun hnot => ?_⟩
    have hkeep := State.liveness_of_not_due (hnot.resolve_left nofun)
    exact ⟨congrArg (·.sur.pulses) hkeep, congrArg (·.sur.due) hkeep⟩

/-- Settles O59: the difference taken on the clock is the signed difference modulo its period. -/
theorem pulseComparisonWrapSafe : Obligations.PulseComparisonWrapSafe := by
  intro bits now due hbits hnow hdue
  obtain ⟨k, rfl⟩ := Nat.exists_eq_add_one.mpr hbits
  have hdiff : ((now + (2 ^ (k + 1) - due)) % 2 ^ (k + 1) : Nat) = ((now : Int) - due) % (2 ^ (k + 1) : Nat) := by
    have hsum : ((now + (2 ^ (k + 1) - due) : Nat) : Int) = now - due + (2 ^ (k + 1) : Nat) := by omega
    rw [Int.natCast_mod, hsum, Int.add_emod_right]
  rw [pulseDue, decide_eq_true_iff, Nat.mod_eq_of_lt hnow, Nat.mod_eq_of_lt hdue, Nat.add_sub_cancel,
    ← Int.ofNat_lt, hdiff, Nat.pow_succ', bmod_nonneg_iff _ (Nat.two_pow_pos k)]

end Sys2Proof.Machine
end

section
/-!
PROOFS. The input reset (70_reset_and_hazards.md): the step it makes, and the statement read off from it.
-/

namespace Sys2Proof.Machine

open Sys2Proof

/-- R210: a reset is `Framer.reset` on the state that the input was taken from. -/
theorem step_reset {s : State} {rest : List Input} (hin : s.inputs = .reset :: rest) :
    step s = .next (State.resetFramer { s.clearPorts with inputs := rest }) :=
  step_cons hin

/-- Settles O16: R210's effect is a record update of FR, the cells' index, the inputs and the two ports. -/
theorem resetRestartsFramerOnly : Obligations.ResetRestartsFramerOnly :=
  fun _ _ hin => ⟨_, step_reset hin, rfl, rfl, rfl, rfl, rfl, rfl, rfl⟩

end Sys2Proof.Machine
end
